-- ==== Sys2Proof/Word.lean ====
section
/-! DEFINITION. The word types of the engine (00_scope.md R9: every quantity is unsigned). -/

namespace Sys2Proof

/-- A 32-bit register or command word (10_state.md R20, 30_encoding.md R90). -/
abbrev Word := BitVec 32

/-- A 64-bit datum: register `VAL` and the data of a bus transaction (R21, R61). -/
abbrev Wide := BitVec 64

/-- A byte: one cell of `CAR` or `TXT` (R29, R30). -/
abbrev Byte := BitVec 8

/-- A Bit: "a boolean value representing one binary digit" (R9); one cell of `BIT` (R31). -/
abbrev Bit := Bool

end Sys2Proof
end

