-- ==== Sys2Proof/Config.lean ====
section
/-! DEFINITION. What is fixed per engine: the parameters of 00_scope.md R4 to R6 and the free values of R36, R76. -/

namespace Sys2Proof

/-- The parameters of an engine (00_scope.md R4, R6; 10_state.md R35: "fixed per engine instance").
Width 8 is mandatory (R4), so it has no switch. DESIGN CHOICE (safe): the parameters are a value
that states carry, see log entries 3 and 8. -/
structure Params where
  /-- `CAR_MAX`, the number of cells of the carrier memory (R6). -/
  carMax : Nat
  /-- `TXT_MAX`, the number of cells of the text memory (R6). -/
  txtMax : Nat
  /-- `BITS_MAX`, the number of cells of the bit memory (R6). -/
  bitsMax : Nat
  /-- Whether W = 16 is in `WIDTHS` (R4, R92). -/
  wide16 : Bool
  /-- Whether W = 32 is in `WIDTHS` (R4, R92). -/
  wide32 : Bool
  /-- Whether W = 64 is in `WIDTHS` (R4, R92). -/
  wide64 : Bool
  deriving DecidableEq, Repr

/-- The engine of this spec: `WIDTHS` = 8, 16, 32, 64 (R4). DESIGN CHOICE (unsafe where a claim uses
the numbers): the example sizes of R6, log entry 3. -/
def Params.standard : Params :=
  { carMax := 65536, txtMax := 8192, bitsMax := 65536, wide16 := true, wide32 := true, wide64 := true }

/-- The largest number of cells a window of the flat address map holds (20_memory.md R62). -/
def windowSize : Nat := 0x01000000

/-- The constraints on the sizes: 00_scope.md R6, and R62 for the flat address map. -/
abbrev Params.valid (p : Params) : Prop :=
  p.bitsMax = 8 * p.txtMax ∧ p.carMax ≤ 8 * (p.txtMax + 1) ∧
    p.carMax ≤ windowSize ∧ p.txtMax ≤ windowSize ∧ p.bitsMax ≤ windowSize

/-- The sentinel byte, hardwired (R5). -/
def sentinel : Byte := 0x0A#8

/-- The unspecified content of `CAR[index]` that dates from the given reset (10_state.md R36,
20_memory.md R76): a free value, see log entry 4. -/
opaque Config.unwrittenCar (epoch index : Nat) : Byte

/-- The unspecified content of `TXT[index]` that dates from the given reset (R36, R76): a free
value, see log entry 4. -/
opaque Config.unwrittenTxt (epoch index : Nat) : Byte

/-- The unspecified content of `BIT[index]` that dates from the given reset (R36, R76): a free
value, see log entry 4. -/
opaque Config.unwrittenBit (epoch index : Nat) : Bit

end Sys2Proof
end

