-- ==== Sys2Proof/Syntax.lean ====
section
/-! DEFINITION. The commands of LSBE-1 (30_encoding.md R93): one constructor per row of the opcode table. -/

namespace Sys2Proof

/-- The widths of the bit primitives (00_scope.md R4), selected by `WSEL` (30_encoding.md R92). -/
inductive Width where
  | w8
  | w16
  | w32
  | w64
  deriving DecidableEq, Repr

/-- The six commands (30_encoding.md R93). The operands of the stream commands are implicit (R98).
A position is a plain number, as in the source; what fits its field is `Instr.wellFormed`. -/
inductive Instr where
  /-- `GETBIT.<w> <pos>` (40_bit_codec.md R126). -/
  | getbit (w : Width) (pos : Nat)
  /-- `SETBIT.<w> <pos>, <bit>` (R127). -/
  | setbit (w : Width) (pos : Nat) (bit : Bit)
  /-- `T2B`, also written `BITIFY` (R128, R97). -/
  | t2b
  /-- `B2T`, also written `UNBITIFY` (R129, R97). -/
  | b2t
  /-- `INJECT` (41_carrier_codec.md R162). -/
  | inject
  /-- `EXTRACT` (R166). -/
  | extract
  deriving DecidableEq, Repr

end Sys2Proof
end

