-- ==== Sys2Proof/WellFormed.lean ====
section
/-! DEFINITION. Which commands an engine's command word can express (30_encoding.md R92, R94, R96). -/

namespace Sys2Proof

/-- Whether W is in `WIDTHS` of the engine (00_scope.md R4; 8 is mandatory). -/
def Params.supports (p : Params) : Width → Bool
  | .w8 => true
  | .w16 => p.wide16
  | .w32 => p.wide32
  | .w64 => p.wide64

/-- A command the engine's command word can express: the position fits the 8-bit field `POS` (R91,
R96) and the width is in `WIDTHS` (R92, R94). A position at or above W is well-formed: it is a
run-time error the engine reports (R96, R126). DEDUCED (safe), log entry 10. -/
def Instr.wellFormed (p : Params) : Instr → Bool
  | .getbit w pos => decide (pos < 256) && p.supports w
  | .setbit w pos _ => decide (pos < 256) && p.supports w
  | .t2b => true
  | .b2t => true
  | .inject => true
  | .extract => true

end Sys2Proof
end

