-- ==== Sys2Proof/Decode.lean ====
section
/-! DEFINITION. The decoder of the 32-bit command word and, after it, the encoder (30_encoding.md R90 to R96). -/

namespace Sys2Proof

/-- W = 8 << WSEL (30_encoding.md R92). -/
def Width.bits : Width → Nat
  | .w8 => 8
  | .w16 => 16
  | .w32 => 32
  | .w64 => 64

/-- The `WSEL` value of a width (R92). -/
def Width.sel : Width → BitVec 2
  | .w8 => 0#2
  | .w16 => 1#2
  | .w32 => 2#2
  | .w64 => 3#2

/-- The width a `WSEL` value selects (R92). -/
def widthOfSel (sel : BitVec 2) : Width :=
  if sel = 0#2 then .w8 else if sel = 1#2 then .w16 else if sel = 2#2 then .w32 else .w64

/-- Field `OP`, bits 3:0 (R91). -/
def opField (word : Word) : BitVec 4 := word.extractLsb' 0 4

/-- Field `WSEL`, bits 5:4 (R91). -/
def wselField (word : Word) : BitVec 2 := word.extractLsb' 4 2

/-- Field `BIT`, bit 6 (R91). -/
def bitField (word : Word) : Bit := word.getLsbD 6

/-- Field `POS`, bits 15:8 (R91). -/
def posField (word : Word) : BitVec 8 := word.extractLsb' 8 8

/-- The rows of the opcode map (R93). -/
inductive Opcode where
  | getbit
  | setbit
  | t2b
  | b2t
  | inject
  | extract
  deriving DecidableEq, Repr

/-- One row of the opcode map: `word & mask == pattern` selects it (R93). -/
structure OpcodeRow where
  op : Opcode
  mask : Word
  pattern : Word
  deriving DecidableEq, Repr

/-- The opcode map, in the table's order (R93, opcode_table.json). -/
def opcodeTable : List OpcodeRow :=
  [ { op := .getbit,  mask := 0xFFFF00CF#32, pattern := 0x00000001#32 },
    { op := .setbit,  mask := 0xFFFF008F#32, pattern := 0x00000002#32 },
    { op := .t2b,     mask := 0xFFFFFFFF#32, pattern := 0x00000003#32 },
    { op := .b2t,     mask := 0xFFFFFFFF#32, pattern := 0x00000004#32 },
    { op := .inject,  mask := 0xFFFFFFFF#32, pattern := 0x00000005#32 },
    { op := .extract, mask := 0xFFFFFFFF#32, pattern := 0x00000006#32 } ]

/-- Whether a word matches a row (R95). -/
def OpcodeRow.hits (row : OpcodeRow) (word : Word) : Bool := word &&& row.mask == row.pattern

/-- The command a word that matches a row stands for, with its fields (R95). -/
def Opcode.build (word : Word) : Opcode → Instr
  | .getbit => .getbit (widthOfSel (wselField word)) (posField word).toNat
  | .setbit => .setbit (widthOfSel (wselField word)) (posField word).toNat (bitField word)
  | .t2b => .t2b
  | .b2t => .b2t
  | .inject => .inject
  | .extract => .extract

/-- Why a word encodes no command (R94). The machine treats all of them alike. -/
inductive IllegalWord where
  /-- `OP` = 0 or `OP` >= 7. -/
  | reservedOpcode
  /-- Bit 7 or one of bits 31:16 is set. -/
  | reservedBits
  /-- `BIT` = 1 in `GETBIT`. -/
  | bitInGetbit
  /-- `WSEL`, `BIT` or `POS` non-zero in a format S command. -/
  | streamOperand
  /-- `WSEL` selects a width outside `WIDTHS`. -/
  | unsupportedWidth
  deriving DecidableEq, Repr

/-- The name of the reason a word matches no row, in the order R94 lists them. -/
def illegalReason (word : Word) : IllegalWord :=
  if opField word = 0#4 ∨ 7 ≤ (opField word).toNat then .reservedOpcode
  else if word.extractLsb' 16 16 ≠ 0#16 ∨ word.getLsbD 7 then .reservedBits
  else if opField word = 1#4 then .bitInGetbit
  else .streamOperand

/-- The decode procedure, total on all words (R95): the first row that matches gives the command. A
width outside the engine's `WIDTHS` makes the word illegal (R92, R94). -/
def decode (p : Params) (word : Word) : Except IllegalWord Instr :=
  match opcodeTable.find? (fun row => row.hits word) with
  | some row =>
    if (row.op.build word).wellFormed p then .ok (row.op.build word) else .error .unsupportedWidth
  | none => .error (illegalReason word)

/-- The command word in the data of a `CMD` write: `data[31:0]`; the rest is ignored (R90). -/
def commandWord (data : Wide) : Word := data.setWidth 32

/-- The instruction this engine's decoder reads from a table word. There is no byte order: the word
is the data of one host write (20_memory.md R68, R73). -/
def decodeTableWord (nbits w : Nat) : Option Instr :=
  match decode Params.standard (BitVec.ofNat 32 (w % 2 ^ nbits)) with
  | .ok i => some i
  | .error _ => none

/-- A format B word: opcode, width select, bit and position at their places (R91, R96). -/
def formatB (op : BitVec 4) (w : Width) (bit : Bit) (pos : Nat) : Word :=
  op.setWidth 32 ||| (w.sel.setWidth 32 <<< 4) ||| ((BitVec.ofBool bit).setWidth 32 <<< 6) |||
    ((BitVec.ofNat 8 pos).setWidth 32 <<< 8)

/-- The command word of a command, as the assembler writes it (R96). -/
def encode : Instr → Word
  | .getbit w pos => formatB 0x1#4 w false pos
  | .setbit w pos bit => formatB 0x2#4 w bit pos
  | .t2b => 0x00000003#32
  | .b2t => 0x00000004#32
  | .inject => 0x00000005#32
  | .extract => 0x00000006#32

end Sys2Proof
end

