-- ==== Sys2Proof/Machine/State.lean ====
section
/-! DEFINITION. The state of the engine as plain data (10_state.md R20 to R38), the host's events and the reasons a step can stop. -/

namespace Sys2Proof.Machine

open Sys2Proof

/-- The three memories (20_memory.md R60); registers are not cells. -/
inductive CellSpace where
  | car
  | txt
  | bit
  deriving DecidableEq, Repr

/-- The outcomes a command leaves in `STATUS.ERR` (60_exceptions.md R200). Codes 5 to 7 are never
produced, so they have no name here. -/
inductive Err where
  | ok
  | outOfRangeBitPosition
  | capacityError
  | decodeError
  | illegalCommand
  deriving DecidableEq, Repr

/-- The values of `STATUS.FSM` (10_state.md R23). -/
inductive Fsm where
  | idle
  | scanning
  | terminated
  | failed
  deriving DecidableEq, Repr

/-- The states of the extract state machine (41_carrier_codec.md R165). -/
inductive ScanPhase where
  | scanning
  | terminated
  | failed
  deriving DecidableEq, Repr

/-- The state of the UTF-8 automaton: continuation bytes still owed and the inclusive range of the
next byte (40_bit_codec.md R123). -/
structure Utf8State where
  need : Nat
  lo : Byte
  hi : Byte
  deriving DecidableEq, Repr

/-- The internal state of a running `EXTRACT` (10_state.md R34). -/
structure Scan where
  /-- `fsm`. -/
  phase : ScanPhase
  /-- `g`, the number of groups consumed so far. -/
  g : Nat
  /-- `acc`, the decoded bytes so far. -/
  acc : List Byte
  /-- `u`, the automaton's state. -/
  u : Utf8State
  deriving DecidableEq, Repr

/-- What the host can do to the engine (20_memory.md R61, 70_reset_and_hazards.md R240). -/
inductive HostEvent where
  | read (addr : Word)
  | write (addr : Word) (data : Wide)
  | reset
  deriving DecidableEq, Repr

/-- The two responses of the bus (R61). -/
inductive Resp where
  | okay
  | error
  deriving DecidableEq, Repr

/-- What a transaction returns (R61). A write returns no data, and a read that gets `ERROR` returns
none here (93_implementation_defined.md U11; DESIGN CHOICE, safe, log entry 2). -/
structure Response where
  resp : Resp
  data : Option Wide
  deriving DecidableEq, Repr

/-- A memory: (index, content) pairs. An index with no entry was not written since reset and holds no
specified value (10_state.md R36). -/
abbrev Memory (α : Type) := List (Nat × α)

/-- The state of the engine (10_state.md R20), with the host's pending events and the responses. -/
structure State where
  /-- The instance's parameters (00_scope.md R4 to R6), which no step changes (10_state.md R35). -/
  params : Params
  /-- `CMD` (R22). -/
  cmd : Word
  /-- `STATUS` (R23). -/
  status : Word
  /-- `VAL` (R21). -/
  val : Wide
  /-- `CLEN` (R24). -/
  clen : Word
  /-- `TLEN` (R25). -/
  tlen : Word
  /-- `BLEN` (R26). -/
  blen : Word
  /-- `GCNT` (R27). -/
  gcnt : Word
  /-- `CAR`, the carrier memory (R29). -/
  car : List Host.Cell
  /-- `TXT`, the text memory (R30). -/
  txt : List Host.Cell
  /-- `BIT`, the bit memory (R31). -/
  bit : List (Nat × Bit)
  /-- The internal state of a running `EXTRACT`, `none` when none runs (R34, R36). -/
  scan : Option Scan
  /-- The model's own: which reset the unspecified contents date from (log entry 5). -/
  epoch : Nat
  /-- The host's events not yet served, oldest first (R61; log entry 1). -/
  pending : List HostEvent
  /-- The responses returned to the host, newest first (R61; log entry 2). -/
  responses : List Response
  deriving DecidableEq, Repr

/-- Why the machine stops with a fault. -/
inductive Fault where
  /-- Raised by a command that accesses a cell at or beyond its space's `*_MAX`, an access 20_memory.md
  R70 gives no meaning. Safe: it can arise only where the length invariants of 10_state.md R38 are
  broken, which no run from reset reaches (log entry 6). -/
  | noSuchCell (space : CellSpace)
  deriving DecidableEq, Repr

/-- Why an instruction has no meaning. -/
inductive Refusal where
  /-- Raised by no instruction of this model; the host's form of exec has the name. Safe: the machine
  stops. -/
  | notModelled (mnemonic : String)
  deriving DecidableEq, Repr

/-- The engine straight after reset (10_state.md R36): registers 0, every cell unspecified, no
`EXTRACT` running. The sizes are log entry 3's, `epoch` is log entry 5's, and nothing is pending. -/
def State.reset : State :=
  { params := Params.standard
    cmd := 0#32
    status := 0#32
    val := 0#64
    clen := 0#32
    tlen := 0#32
    blen := 0#32
    gcnt := 0#32
    car := []
    txt := []
    bit := []
    scan := none
    epoch := 0
    pending := []
    responses := [] }

end Sys2Proof.Machine
end

