-- ==== Sys2Proof/Machine/Flags.lean ====
section
/-! DEFINITION. The fields of `STATUS` (10_state.md R23): codes, packing and reading. -/

namespace Sys2Proof.Machine

open Sys2Proof

/-- The numeric codes of `STATUS.ERR` (60_exceptions.md R200). -/
def errCode : Err → BitVec 3
  | .ok => 0#3
  | .outOfRangeBitPosition => 1#3
  | .capacityError => 2#3
  | .decodeError => 3#3
  | .illegalCommand => 4#3

/-- The numeric codes of `STATUS.FSM` (10_state.md R23). -/
def fsmCode : Fsm → BitVec 2
  | .idle => 0#2
  | .scanning => 1#2
  | .terminated => 2#2
  | .failed => 3#2

/-- A whole `STATUS` word: `ERR` in 2:0, `FSM` in 5:4, `RBIT` in 8, reserved bits 0 (R23). -/
def packStatus (err : Err) (fsm : Fsm) (rbit : Bit) : Word :=
  (errCode err).setWidth 32 ||| ((fsmCode fsm).setWidth 32 <<< 4) |||
    ((BitVec.ofBool rbit).setWidth 32 <<< 8)

/-- `STATUS.ERR` (R23). -/
def errField (status : Word) : BitVec 3 := status.extractLsb' 0 3

/-- `STATUS.FSM` (R23). -/
def fsmField (status : Word) : BitVec 2 := status.extractLsb' 4 2

/-- `STATUS.RBIT` (R23). -/
def rbitField (status : Word) : Bit := status.getLsbD 8

/-- The reserved bits of `STATUS`: 3, 7:6 and 31:9 (R23). -/
def statusReserved : Word := 0xFFFFFEC8#32

/-- The code a scan's state leaves in `STATUS.FSM` (10_state.md R34). -/
def phaseFsm : ScanPhase → Fsm
  | .scanning => .scanning
  | .terminated => .terminated
  | .failed => .failed

end Sys2Proof.Machine
end

