-- ==== Sys2Proof/Machine/Ops.lean ====
section
/-! DEFINITION. The operations over memories and registers, how a command ends, error entry and reset. -/

namespace Sys2Proof.Machine

open Sys2Proof

namespace Memory

variable {α : Type}

/-- The content of a cell, `none` when nothing was written to it since reset (10_state.md R36). -/
def lookup : Memory α → Nat → Option α
  | [], _ => none
  | (j, x) :: m, i => if i = j then some x else lookup m i

/-- Replaces one cell (20_memory.md R70), keeping the indices strictly rising. -/
def write : Memory α → Nat → α → Memory α
  | [], i, v => [(i, v)]
  | (j, x) :: m, i, v =>
    if i < j then (i, v) :: (j, x) :: m
    else if i = j then (j, v) :: m
    else (j, x) :: write m i v

/-- Writes a sequence to the cells from index `i` on, in index order (20_memory.md R67). -/
def writeList : Memory α → Nat → List α → Memory α
  | m, _, [] => m
  | m, i, v :: vs => writeList (write m i v) (i + 1) vs

/-- The indices rise strictly and none is below `lo`. -/
def risesFrom : Nat → Memory α → Bool
  | _, [] => true
  | lo, (i, _) :: m => decide (lo ≤ i) && risesFrom (i + 1) m

/-- The canonical form: indices strictly rising. An unlisted cell reads as no value, so no entry can
equal it. -/
def wf (m : Memory α) : Bool := risesFrom 0 m

/-- Every listed index is below `n`, the number of cells (20_memory.md R60). -/
def within (m : Memory α) (n : Nat) : Bool := m.all (fun c => decide (c.1 < n))

end Memory

/-- The number of cells of a space (R60, 00_scope.md R6). -/
def cellCount (p : Params) : CellSpace → Nat
  | .car => p.carMax
  | .txt => p.txtMax
  | .bit => p.bitsMax

/-- `MemRead(CAR, i)` (R70). A cell never written since reset gives its unspecified content, a free
value (R76; log entry 4). -/
def readCar (s : State) (i : Nat) : Byte :=
  (Memory.lookup s.car i).getD (Config.unwrittenCar s.epoch i)

/-- `MemRead(TXT, i)` (R70, R76; log entry 4). -/
def readTxt (s : State) (i : Nat) : Byte :=
  (Memory.lookup s.txt i).getD (Config.unwrittenTxt s.epoch i)

/-- `MemRead(BIT, i)` (R70, R76; log entry 4). -/
def readBit (s : State) (i : Nat) : Bit :=
  (Memory.lookup s.bit i).getD (Config.unwrittenBit s.epoch i)

/-- `MemWrite(CAR, i, v)` (R70). -/
def writeCar (i : Nat) (v : Byte) (s : State) : State := { s with car := Memory.write s.car i v }

/-- `MemWrite(TXT, i, v)` (R70). -/
def writeTxt (i : Nat) (v : Byte) (s : State) : State := { s with txt := Memory.write s.txt i v }

/-- `MemWrite(BIT, i, v)` (R70). -/
def writeBit (i : Nat) (v : Bit) (s : State) : State := { s with bit := Memory.write s.bit i v }

/-- `CAR[0..n)` (R67). -/
def carCells (s : State) (n : Nat) : List Byte := (List.range n).map (readCar s)

/-- `TXT[0..n)` (R67). -/
def txtCells (s : State) (n : Nat) : List Byte := (List.range n).map (readTxt s)

/-- `BIT[0..n)` (R67). -/
def bitCells (s : State) (n : Nat) : List Bit := (List.range n).map (readBit s)

/-- Writes a byte sequence to `CAR[0 ..)` (R67, R70). -/
def storeCar (bytes : List Byte) (s : State) : State :=
  { s with car := Memory.writeList s.car 0 bytes }

/-- Writes a byte sequence to `TXT[0 ..)` (R67, R70). -/
def storeTxt (bytes : List Byte) (s : State) : State :=
  { s with txt := Memory.writeList s.txt 0 bytes }

/-- Writes a bit sequence to `BIT[0 ..)` (R67, R70). -/
def storeBit (bits : List Bit) (s : State) : State :=
  { s with bit := Memory.writeList s.bit 0 bits }

/-- Writes `VAL` (10_state.md R21). -/
def setVal (v : Wide) (s : State) : State := { s with val := v }

/-- Writes `CLEN` (R24). -/
def setClen (n : Word) (s : State) : State := { s with clen := n }

/-- Writes `TLEN` (R25). -/
def setTlen (n : Word) (s : State) : State := { s with tlen := n }

/-- Writes `BLEN` (R26). -/
def setBlen (n : Word) (s : State) : State := { s with blen := n }

/-- Writes `GCNT` (R27). -/
def setGcnt (n : Word) (s : State) : State := { s with gcnt := n }

/-- Stores a word in `CMD` (R22). -/
def setCmd (w : Word) (s : State) : State := { s with cmd := w }

/-- Writes the internal state of a running `EXTRACT` (R34). -/
def setScan (x : Option Scan) (s : State) : State := { s with scan := x }

/-- The command goes on only if its cells `0 .. n-1` of a space exist: `MemRead` and `MemWrite` have
no meaning at or beyond the space's `*_MAX` (20_memory.md R70; log entry 6). -/
def withCells (space : CellSpace) (n : Nat) (s : State)
    (next : Host.Outcome State Fault Refusal) : Host.Outcome State Fault Refusal :=
  if n ≤ cellCount s.params space then next else .fault (.noSuchCell space)

/-- A command succeeds: `ERR` = OK, with the command's `FSM` and `RBIT` (10_state.md R23). -/
def complete (fsm : Fsm) (rbit : Bit) (s : State) : State :=
  { s with status := packStatus .ok fsm rbit }

/-- Error entry, `raise` (60_exceptions.md R208): `ERR` = the code, `RBIT` = 0; for a legal `EXTRACT`,
which gives its group count, `FSM` = FAILED and `GCNT` = the count; for any other command `FSM` =
IDLE and `GCNT` stays. Nothing is saved and nothing is there to return to: the next command
overwrites `STATUS` (R210). -/
def raise (err : Err) (extractGroups : Option Nat) (s : State) : State :=
  match extractGroups with
  | some g => { s with status := packStatus err .failed false, gcnt := BitVec.ofNat 32 g }
  | none => { s with status := packStatus err .idle false }

/-- The value `CFG` is hardwired to (10_state.md R28): `SENTINEL` in 7:0, `WMASK` in 11:8. -/
def cfgWord (p : Params) : Word :=
  sentinel.setWidth 32 ||| ((BitVec.ofBool true).setWidth 32 <<< 8) |||
    ((BitVec.ofBool p.wide16).setWidth 32 <<< 9) |||
    ((BitVec.ofBool p.wide32).setWidth 32 <<< 10) |||
    ((BitVec.ofBool p.wide64).setWidth 32 <<< 11)

/-- The reset event (70_reset_and_hazards.md R240, 10_state.md R36): every register at its reset
value, every cell unspecified and unrelated to what it was, no `EXTRACT` running. The parameters
(R35), what the host still has to do and what it was told are not the engine's to reset. -/
def applyReset (s : State) : State :=
  { State.reset with
    params := s.params
    epoch := s.epoch + 1
    pending := s.pending
    responses := s.responses }

/-- A transaction returns to the host (20_memory.md R61). -/
def respond (r : Response) (s : State) : State := { s with responses := r :: s.responses }

/-- The host's next event is taken (R61: one transaction at a time). -/
def setPending (events : List HostEvent) (s : State) : State := { s with pending := events }

end Sys2Proof.Machine
end

