-- ==== Sys2Proof/Machine/Bus.lean ====
section
/-! DEFINITION. The host bus: address map, reads and writes of registers and cells (20_memory.md R60 to R65). -/

namespace Sys2Proof.Machine

open Sys2Proof

/-- The eight registers (10_state.md R20). -/
inductive Reg where
  | cmd
  | status
  | val
  | clen
  | tlen
  | blen
  | gcnt
  | cfg
  deriving DecidableEq, Repr

/-- What a mapped address names (20_memory.md R62). -/
inductive Target where
  | reg (r : Reg)
  | car (i : Nat)
  | txt (i : Nat)
  | bit (i : Nat)
  deriving DecidableEq, Repr

/-- The register at index `addr / 8` of the `REG` space (10_state.md R20, 20_memory.md R62). -/
def regAt (index : Nat) : Option Reg :=
  match index with
  | 0 => some .cmd
  | 1 => some .status
  | 2 => some .val
  | 3 => some .clen
  | 4 => some .tlen
  | 5 => some .blen
  | 6 => some .gcnt
  | 7 => some .cfg
  | _ => none

/-- First address of the `CAR` window (R62). -/
def carBase : Nat := 0x01000000

/-- First address of the `TXT` window (R62). -/
def txtBase : Nat := 0x02000000

/-- First address of the `BIT` window (R62). -/
def bitBase : Nat := 0x03000000

/-- The flat address map (R62); `none` is an unmapped or misaligned address (R64 (a), (b)). -/
def locate (p : Params) (addr : Word) : Option Target :=
  let a := addr.toNat
  if a < 0x40 then
    if a % 8 = 0 then (regAt (a / 8)).map .reg else none
  else if carBase ≤ a ∧ a < carBase + p.carMax then some (.car (a - carBase))
  else if txtBase ≤ a ∧ a < txtBase + p.txtMax then some (.txt (a - txtBase))
  else if bitBase ≤ a ∧ a < bitBase + p.bitsMax then some (.bit (a - bitBase))
  else none

/-- A register's value (R20; `CFG` is hardwired, R28). -/
def readReg (r : Reg) (s : State) : Wide :=
  match r with
  | .cmd => s.cmd.setWidth 64
  | .status => s.status.setWidth 64
  | .val => s.val
  | .clen => s.clen.setWidth 64
  | .tlen => s.tlen.setWidth 64
  | .blen => s.blen.setWidth 64
  | .gcnt => s.gcnt.setWidth 64
  | .cfg => (cfgWord s.params).setWidth 64

/-- The data of a read, zero-extended to 64 bits (20_memory.md R63). -/
def readTarget (t : Target) (s : State) : Wide :=
  match t with
  | .reg r => readReg r s
  | .car i => (readCar s i).setWidth 64
  | .txt i => (readTxt s i).setWidth 64
  | .bit i => (BitVec.ofBool (readBit s i)).setWidth 64

/-- A write of a length register: refused above the maximum, else stored (10_state.md R24 to R26,
20_memory.md R64 (c)). -/
def writeLength (max : Nat) (data : Wide) (store : Word → State → State) (s : State) : Option State :=
  if max < (data.setWidth 32 : Word).toNat then none else some (store (data.setWidth 32) s)

/-- A host write; `none` is an `ERROR` response. `STATUS`, `GCNT` and `CFG` ignore it (R65). For `CMD`
this stores the word, and the command it starts is the caller's (10_state.md R22). -/
def writeTarget (t : Target) (data : Wide) (s : State) : Option State :=
  match t with
  | .reg .cmd => some (setCmd (commandWord data) s)
  | .reg .status => some s
  | .reg .val => some (setVal data s)
  | .reg .clen => writeLength s.params.carMax data setClen s
  | .reg .tlen => writeLength s.params.txtMax data setTlen s
  | .reg .blen => writeLength s.params.bitsMax data setBlen s
  | .reg .gcnt => some s
  | .reg .cfg => some s
  | .car i => some (writeCar i (data.setWidth 8) s)
  | .txt i => some (writeTxt i (data.setWidth 8) s)
  | .bit i => some (writeBit i (data.getLsbD 0) s)

/-- The response `OKAY` of a write (R61). -/
def okayWrite : Response := { resp := .okay, data := none }

/-- The response `ERROR`, without data (R64; log entry 2). -/
def errorResponse : Response := { resp := .error, data := none }

/-- The response `OKAY` of a read, with its data (R61). -/
def okayRead (v : Wide) : Response := { resp := .okay, data := some v }

/-- `Read(addr)` (R61 to R64). No read has a side effect (R75). -/
def serveRead (addr : Word) (s : State) : State :=
  match locate s.params addr with
  | some t => respond (okayRead (readTarget t s)) s
  | none => respond errorResponse s

end Sys2Proof.Machine
end

