-- ==== Sys2Proof/Machine/Operands.lean ====
section
/-! DEFINITION. Where each command finds its operands (30_encoding.md R92, R98). -/

namespace Sys2Proof.Machine

open Sys2Proof

/-- The `value` operand of the bit primitives: `VAL[W-1:0]` (10_state.md R21). -/
def valueOperand (w : Width) (s : State) : BitVec w.bits := s.val.setWidth w.bits

/-- `CLEN` as a count: lengths are unbounded naturals (40_bit_codec.md R131). -/
def carrierLength (s : State) : Nat := s.clen.toNat

/-- `TLEN` as a count. -/
def textLength (s : State) : Nat := s.tlen.toNat

/-- `BLEN` as a count. -/
def bitLength (s : State) : Nat := s.blen.toNat

/-- The `text` of `T2B` and the `message` of `INJECT`: `TXT[0..TLEN)` (R98). -/
def textOperand (s : State) : List Byte := txtCells s (textLength s)

/-- The `bits` of `B2T`: `BIT[0..BLEN)` (R98). -/
def bitsOperand (s : State) : List Bit := bitCells s (bitLength s)

/-- The `carrier` of `INJECT` and `EXTRACT`: `CAR[0..CLEN)` (R98). -/
def carrierOperand (s : State) : List Byte := carCells s (carrierLength s)

end Sys2Proof.Machine
end

