-- ==== Sys2Proof/Machine/BitCodec.lean ====
section
/-! DEFINITION. The pure functions of the Bit Codec (40_bit_codec.md R120 to R125). -/

namespace Sys2Proof.Machine

open Sys2Proof

/-- `get_bit_fn(W, v, p) = (v >> p) & 1`, with 1 read as true (R120). -/
def getBitFn {W : Nat} (v : BitVec W) (p : Nat) : Bit := (v >>> p) &&& 1#W == 1#W

/-- `set_bit_fn(W, v, p, b)`: `v | (1 << p)` or `v & ~(1 << p)` (R121). -/
def setBitFn {W : Nat} (v : BitVec W) (p : Nat) (b : Bit) : BitVec W :=
  if b then v ||| (1#W <<< p) else v &&& ~~~(1#W <<< p)

/-- The bits of a byte in stream order: element k is position 7-k (R122, 20_memory.md R66). -/
def byteBits (b : Byte) : List Bit := (List.range 8).map (fun k => getBitFn b (7 - k))

/-- Folds a group into a byte, `byte = byte*2 + bit`, left to right (R122). -/
def fold8 (g : List Bit) : Byte := g.foldl (fun byte bit => byte * 2#8 + (BitVec.ofBool bit).setWidth 8) 0#8

/-- The automaton's start state `U0` (R123). -/
def utf8Start : Utf8State := { need := 0, lo := 0x80#8, hi := 0xBF#8 }

/-- One transition of the UTF-8 automaton; `none` is REJECT (R123). -/
def utf8Step (u : Utf8State) (b : Byte) : Option Utf8State :=
  if u.need = 0 then
    if b ≤ 0x7F#8 then some { need := 0, lo := 0x80#8, hi := 0xBF#8 }
    else if 0xC2#8 ≤ b ∧ b ≤ 0xDF#8 then some { need := 1, lo := 0x80#8, hi := 0xBF#8 }
    else if b = 0xE0#8 then some { need := 2, lo := 0xA0#8, hi := 0xBF#8 }
    else if (0xE1#8 ≤ b ∧ b ≤ 0xEC#8) ∨ (0xEE#8 ≤ b ∧ b ≤ 0xEF#8) then
      some { need := 2, lo := 0x80#8, hi := 0xBF#8 }
    else if b = 0xED#8 then some { need := 2, lo := 0x80#8, hi := 0x9F#8 }
    else if b = 0xF0#8 then some { need := 3, lo := 0x90#8, hi := 0xBF#8 }
    else if 0xF1#8 ≤ b ∧ b ≤ 0xF3#8 then some { need := 3, lo := 0x80#8, hi := 0xBF#8 }
    else if b = 0xF4#8 then some { need := 3, lo := 0x80#8, hi := 0x8F#8 }
    else none
  else if u.lo ≤ b ∧ b ≤ u.hi then some { need := u.need - 1, lo := 0x80#8, hi := 0xBF#8 }
  else none

/-- Steps the automaton through a byte sequence; `none` once it has rejected (R123). -/
def utf8Run : Utf8State → List Byte → Option Utf8State
  | u, [] => some u
  | u, b :: bytes =>
    match utf8Step u b with
    | none => none
    | some u' => utf8Run u' bytes

/-- `utf8_valid(s)`: no REJECT, and the run ends at a character boundary (R123). -/
def utf8Valid (bytes : List Byte) : Bool :=
  match utf8Run utf8Start bytes with
  | none => false
  | some u => u.need == 0

/-- The table of R123 (log entry 12): for each row the inclusive range of each byte of one character. -/
def utf8Table : List (List (Byte × Byte)) :=
  [ [(0x00#8, 0x7F#8)],
    [(0xC2#8, 0xDF#8), (0x80#8, 0xBF#8)],
    [(0xE0#8, 0xE0#8), (0xA0#8, 0xBF#8), (0x80#8, 0xBF#8)],
    [(0xE1#8, 0xEC#8), (0x80#8, 0xBF#8), (0x80#8, 0xBF#8)],
    [(0xED#8, 0xED#8), (0x80#8, 0x9F#8), (0x80#8, 0xBF#8)],
    [(0xEE#8, 0xEF#8), (0x80#8, 0xBF#8), (0x80#8, 0xBF#8)],
    [(0xF0#8, 0xF0#8), (0x90#8, 0xBF#8), (0x80#8, 0xBF#8), (0x80#8, 0xBF#8)],
    [(0xF1#8, 0xF3#8), (0x80#8, 0xBF#8), (0x80#8, 0xBF#8), (0x80#8, 0xBF#8)],
    [(0xF4#8, 0xF4#8), (0x80#8, 0x8F#8), (0x80#8, 0xBF#8), (0x80#8, 0xBF#8)] ]

/-- Whether a byte sequence is one character of a row: a byte in each range, and no more (R123). -/
def fitsRow : List (Byte × Byte) → List Byte → Bool
  | [], [] => true
  | (lo, hi) :: row, b :: bytes => decide (lo ≤ b) && decide (b ≤ hi) && fitsRow row bytes
  | [], _ :: _ => false
  | _ :: _, [] => false

/-- Well-formed UTF-8 as the table defines it: "a concatenation of zero or more of the following byte
patterns" (R123). -/
inductive WellFormedUtf8 : List Byte → Prop where
  | nil : WellFormedUtf8 []
  | cons (row : List (Byte × Byte)) (char rest : List Byte) (hrow : row ∈ utf8Table)
      (hchar : fitsRow row char = true) (hrest : WellFormedUtf8 rest) : WellFormedUtf8 (char ++ rest)

/-- `text_to_bits_fn(t)` (R124). -/
def textToBitsFn (t : List Byte) : List Bit := t.flatMap byteBits

/-- `bytes[j] = fold8(s[8j .. 8j+8))` for j below `len(s) / 8` (R125). -/
def groupBytes (s : List Bit) : List Byte :=
  (List.range (s.length / 8)).map (fun j => fold8 ((s.drop (8 * j)).take 8))

/-- `bits_to_text_fn(s)`; `none` is `DecodeError`: a partial trailing group, or ill-formed UTF-8
(R125; 90_conflicts.md C1). -/
def bitsToTextFn (s : List Bit) : Option (List Byte) :=
  if s.length % 8 ≠ 0 then none
  else if utf8Valid (groupBytes s) then some (groupBytes s)
  else none

end Sys2Proof.Machine
end

