-- ==== Sys2Proof/Machine/BitPrimitives.lean ====
section
/-! DEFINITION. The bit primitives GETBIT and SETBIT (40_bit_codec.md R126, R127). -/

namespace Sys2Proof.Machine

open Sys2Proof

/-- `GETBIT` (R126). -/
def execGetbit (w : Width) (pos : Nat) (s : State) : Host.Outcome State Fault Refusal :=
  if pos < w.bits then .next (complete .idle (getBitFn (valueOperand w s) pos) s)
  else .next (raise .outOfRangeBitPosition none s)

/-- `SETBIT` (R127): one position of the 64-bit `VAL` (10_state.md R21). -/
def execSetbit (w : Width) (pos : Nat) (bit : Bit) (s : State) : Host.Outcome State Fault Refusal :=
  if pos < w.bits then .next (complete .idle false (setVal (setBitFn s.val pos bit) s))
  else .next (raise .outOfRangeBitPosition none s)

end Sys2Proof.Machine
end

