-- ==== Sys2Proof/Machine/CarrierCodec.lean ====
section
/-! DEFINITION. The pure functions of the Carrier Codec and INJECT (41_carrier_codec.md R160 to R164, R176). -/

namespace Sys2Proof.Machine

open Sys2Proof

/-- `frame(m) = m ++ [0x0A]` (R160). -/
def frame (m : List Byte) : List Byte := m ++ [sentinel]

/-- The number of carrier bytes a message of `n` bytes needs, `8 * (n + 1)` (R161). -/
def needFor (n : Nat) : Nat := 8 * (n + 1)

/-- Rewrites position 0 of each carrier byte with the stream bit of its index (R161). -/
def embed (carrier : List Byte) (bits : List Bit) : List Byte :=
  List.zipWith (fun c b => setBitFn c 0 b) carrier bits

/-- `INJECT` (R162): the capacity check comes before the first write. -/
def execInject (s : State) : Host.Outcome State Fault Refusal :=
  if carrierLength s < needFor (textLength s) then .next (raise .capacityError none s)
  else
    withCells .txt (textLength s) s
      (withCells .car (needFor (textLength s)) s
        (.next (complete .idle false
          (storeCar (embed (carCells s (needFor (textLength s))) (textToBitsFn (frame (textOperand s)))) s))))

/-- `inject_fn(c, m)`; `none` is `CapacityError` (R161). The reference of `INJECT`. -/
def injectFn (c m : List Byte) : Option (List Byte) :=
  if c.length < needFor m.length then none
  else
    some (c.mapIdx (fun i x =>
      match (textToBitsFn (frame m))[i]? with
      | some b => setBitFn x 0 b
      | none => x))

/-- Position 0 of a byte, "`byte % 2 == 1` ⇒ true" (40_bit_codec.md R131 (c)). -/
def lsb (b : Byte) : Bit := b.toNat % 2 == 1

/-- The bytes `y[j]` folded from the LSBs of a carrier's whole groups (R176). -/
def carrierBytes (c : List Byte) : List Byte :=
  (List.range (c.length / 8)).map (fun j => fold8 ((List.range 8).map (fun k => lsb (c.getD (8 * j + k) 0#8))))

/-- The least index at which stepping the automaton from `u` rejects, if there is one (R176). -/
def firstReject : Utf8State → List Byte → Option Nat
  | _, [] => none
  | u, b :: bytes =>
    match utf8Step u b with
    | none => some 0
    | some u' => (firstReject u' bytes).map (· + 1)

/-- What `extract_fn` answers: the text, or `none` for `DecodeError`, and the groups consumed (R176). -/
structure ExtractAnswer where
  text : Option (List Byte)
  groups : Nat
  deriving DecidableEq, Repr

/-- `extract_fn(c)`, the big-step reading of `EXTRACT` (R176). The reference of `EXTRACT`. -/
def extractFn (c : List Byte) : ExtractAnswer :=
  let y := carrierBytes c
  match y.findIdx? (fun b => b == sentinel), firstReject utf8Start y with
  | some t, none => { text := some (y.take t), groups := t + 1 }
  | some t, some f =>
    if t < f then { text := some (y.take t), groups := t + 1 } else { text := none, groups := f + 1 }
  | none, some f => { text := none, groups := f + 1 }
  | none, none => { text := none, groups := c.length / 8 }

end Sys2Proof.Machine
end

