-- ==== Sys2Proof/Machine/Extract.lean ====
section
/-! DEFINITION. EXTRACT and its state machine (41_carrier_codec.md R165 to R171). -/

namespace Sys2Proof.Machine

open Sys2Proof

/-- The machine's start (R166): SCANNING, no group consumed, nothing accumulated, `U0`. -/
def scanStart : Scan := { phase := .scanning, g := 0, acc := [], u := utf8Start }

/-- The byte of group `g`: the LSBs of `CAR[8g .. 8g+8)`, folded MSB-first (R168). -/
def groupByte (s : State) (g : Nat) : Byte :=
  fold8 ((List.range 8).map (fun k => lsb (readCar s (8 * g + k))))

/-- Premature end of input (R167): SCANNING → FAILED, nothing else changes. -/
def scanEnds (x : Scan) : Scan := { x with phase := .failed }

/-- An invalid byte (R168): the group is consumed, SCANNING → FAILED. -/
def scanRejects (x : Scan) : Scan := { x with g := x.g + 1, phase := .failed }

/-- The sentinel (R169): the group is consumed, SCANNING → TERMINATED. -/
def scanTerminates (x : Scan) : Scan := { x with g := x.g + 1, phase := .terminated }

/-- Any other byte (R170): the group is consumed and the byte appended. -/
def scanAppends (byte : Byte) (u : Utf8State) (x : Scan) : Scan :=
  { x with g := x.g + 1, acc := x.acc ++ [byte], u := u }

/-- The one transition that applies (R165 to R170); TERMINATED and FAILED are terminal. -/
def scanTransition (s : State) (x : Scan) : Scan :=
  match x.phase with
  | .scanning =>
    if carrierLength s < 8 * x.g + 8 then scanEnds x
    else
      match utf8Step x.u (groupByte s x.g) with
      | none => scanRejects x
      | some u =>
        if groupByte s x.g = sentinel then scanTerminates x
        else scanAppends (groupByte s x.g) u x
  | .terminated => x
  | .failed => x

/-- `EXTRACT` starts its state machine (R166). -/
def beginScan (s : State) : State := setScan (some scanStart) s

/-- One transition of a running `EXTRACT`. -/
def advanceScan (s : State) : State := setScan (s.scan.map (scanTransition s)) s

/-- `n` transitions. -/
def runScan : Nat → State → State
  | 0, s => s
  | n + 1, s => runScan n (advanceScan s)

/-- Commit (R171): the text and its length if TERMINATED, `DecodeError` if FAILED, `GCNT` in both; the
internal state no longer exists. The scan read `CAR[0..8*g)` and writes `TXT[0..len(acc))`. While
it is SCANNING, or when no `EXTRACT` runs, there is nothing to commit. -/
def commitScan (s : State) : Host.Outcome State Fault Refusal :=
  match s.scan with
  | none => .next s
  | some x =>
    match x.phase with
    | .scanning => .next s
    | .failed => withCells .car (8 * x.g) s (.next (raise .decodeError (some x.g) (setScan none s)))
    | .terminated =>
      withCells .car (8 * x.g) s
        (withCells .txt x.acc.length s
          (.next (complete .terminated false
            (setGcnt (BitVec.ofNat 32 x.g)
              (setTlen (BitVec.ofNat 32 x.acc.length) (storeTxt x.acc (setScan none s)))))))

/-- `EXTRACT` (R166), one atomic step to the host (20_memory.md R71): at most `CLEN / 8 + 1` transitions
reach a terminal state (R174), then commit. -/
def execExtract (s : State) : Host.Outcome State Fault Refusal :=
  commitScan (runScan (carrierLength s / 8 + 1) (beginScan s))

end Sys2Proof.Machine
end

