-- ==== Sys2Proof/Machine/Serializer.lean ====
section
/-! DEFINITION. The serializer T2B and the deserializer B2T (40_bit_codec.md R128, R129). -/

namespace Sys2Proof.Machine

open Sys2Proof

/-- `T2B` (R128). -/
def execT2b (s : State) : Host.Outcome State Fault Refusal :=
  withCells .txt (textLength s) s
    (withCells .bit (8 * textLength s) s
      (.next (complete .idle false
        (setBlen (BitVec.ofNat 32 (8 * textLength s)) (storeBit (textToBitsFn (textOperand s)) s)))))

/-- `B2T` (R129): the length check, then validation, then the copy to `TXT` (60_exceptions.md R206). -/
def execB2t (s : State) : Host.Outcome State Fault Refusal :=
  if bitLength s % 8 ≠ 0 then .next (raise .decodeError none s)
  else
    withCells .bit (bitLength s) s
      (match bitsToTextFn (bitsOperand s) with
      | none => .next (raise .decodeError none s)
      | some text =>
        withCells .txt text.length s
          (.next (complete .idle false
            (setTlen (BitVec.ofNat 32 text.length) (storeTxt text s)))))

end Sys2Proof.Machine
end

