-- ==== Sys2Proof/Machine/Dispatch.lean ====
section
/-! DEFINITION. One arm per command (30_encoding.md R93). -/

namespace Sys2Proof.Machine

open Sys2Proof

def exec (i : Instr) (s : State) : Host.Outcome State Fault Refusal :=
  match i with
  | .getbit w pos => Sys2Proof.Machine.execGetbit w pos s
  | .setbit w pos bit => Sys2Proof.Machine.execSetbit w pos bit s
  | .t2b => Sys2Proof.Machine.execT2b s
  | .b2t => Sys2Proof.Machine.execB2t s
  | .inject => Sys2Proof.Machine.execInject s
  | .extract => Sys2Proof.Machine.execExtract s

end Sys2Proof.Machine
end

