-- ==== Sys2Proof/Machine/Command.lean ====
section
/-! DEFINITION. A `CMD` write runs a command, and how each host event is served (10_state.md R22, 20_memory.md R61, R71). -/

namespace Sys2Proof.Machine

open Sys2Proof

/-- The `CMD` write returns `OKAY` whatever its command's outcome (60_exceptions.md R205). -/
def returnOkay (o : Host.Outcome State Fault Refusal) : Host.Outcome State Fault Refusal :=
  match o with
  | .next s => .next (respond okayWrite s)
  | .fault f => .fault f
  | .refused r => .refused r

/-- Decodes and executes the word just stored in `CMD`, to completion, inside the write transaction
(10_state.md R22, 20_memory.md R71). Decode comes first (60_exceptions.md R206); an illegal word
performs no operation and fails with `IllegalCommand` (R204). -/
def runCommand (word : Word) (s : State) : Host.Outcome State Fault Refusal :=
  match decode s.params word with
  | .ok i => returnOkay (exec i s)
  | .error _ => .next (respond okayWrite (raise .illegalCommand none s))

/-- `Write(addr, data)` (R61 to R65). Only a write of `CMD` has a side effect beyond storing (R75). -/
def serveWrite (addr : Word) (data : Wide) (s : State) : Host.Outcome State Fault Refusal :=
  match locate s.params addr with
  | none => .next (respond errorResponse s)
  | some t =>
    match writeTarget t data s with
    | none => .next (respond errorResponse s)
    | some s' => if t = .reg .cmd then runCommand (commandWord data) s' else .next (respond okayWrite s')

/-- Serves one event of the host (R61, 70_reset_and_hazards.md R240). -/
def serve (e : HostEvent) (s : State) : Host.Outcome State Fault Refusal :=
  match e with
  | .read addr => .next (serveRead addr s)
  | .write addr data => serveWrite addr data s
  | .reset => .next (applyReset s)

/-- A state in the middle of an `EXTRACT`: the next transition, or the commit and with it the end of the
`CMD` write. The host waits (R61). No such state lies between two steps of a run (R71; log entry 9). -/
def continueScan (x : Scan) (s : State) : Host.Outcome State Fault Refusal :=
  if x.phase = .scanning then .next (advanceScan s) else returnOkay (commitScan s)

/-- Serves the host's oldest event; with nothing pending the engine is idle and holds its state
(60_exceptions.md R215). -/
def serveNext (s : State) : Host.Outcome State Fault Refusal :=
  match s.pending with
  | [] => .next s
  | e :: rest => serve e (setPending rest s)

/-- The host event that starts the command of a word: a write of `CMD` (30_encoding.md R96). -/
def commandWrite (word : Word) : HostEvent := .write 0x00000000#32 (word.setWidth 64)

end Sys2Proof.Machine
end

