-- ==== Sys2Proof/Machine/Step.lean ====
section
/-! DEFINITION. One step of the machine: one atomic step of 20_memory.md R71. -/

namespace Sys2Proof.Machine

open Sys2Proof

/-- One step: the oldest event of the host is served, a `CMD` write with its whole command (R71). -/
def step (s : State) : Host.Outcome State Fault Refusal :=
  match s.scan with
  | some x => continueScan x s
  | none => serveNext s

/-- The state whose next step runs the command word `w`: the host's next event is a write of `w` to
`CMD`, and no `EXTRACT` is in the middle of its scan (log entry 7). -/
def State.withFetchWord (s : State) (nbits w : Nat) : State :=
  setScan none (setPending (commandWrite (BitVec.ofNat 32 (w % 2 ^ nbits)) :: s.pending) s)

end Sys2Proof.Machine
end

