-- ==== Sys2Proof/Safety.lean ====
section
/-! DEFINITION. What a safe run is: the invariants of 10_state.md R38 and no stop. -/

namespace Sys2Proof.Machine

open Sys2Proof

/-- The invariants of R38, with the constraints on the parameters (00_scope.md R6), the canonical form
of the memories, and no `EXTRACT` in the middle of its scan (20_memory.md R71). -/
structure State.Inv (s : State) : Prop where
  params_valid : s.params.valid
  clen_le : s.clen.toNat ≤ s.params.carMax
  tlen_le : s.tlen.toNat ≤ s.params.txtMax
  blen_le : s.blen.toNat ≤ s.params.bitsMax
  gcnt_le : s.gcnt.toNat ≤ s.params.carMax / 8
  err_le : (errField s.status).toNat ≤ 4
  reserved_zero : s.status &&& statusReserved = 0#32
  not_scanning : fsmField s.status ≠ fsmCode .scanning
  car_wf : Memory.wf s.car = true
  txt_wf : Memory.wf s.txt = true
  bit_wf : Memory.wf s.bit = true
  car_within : Memory.within s.car s.params.carMax = true
  txt_within : Memory.within s.txt s.params.txtMax = true
  bit_within : Memory.within s.bit s.params.bitsMax = true
  no_scan : s.scan = none

/-- The step goes on: neither a fault nor a refusal. -/
def State.GoesOn (s : State) : Prop := ∃ t, step s = .next t

/-- No run of any length stops (41_carrier_codec.md R174: "no state of the engine is stuck"). -/
def State.NeverStops (s : State) : Prop := ∀ n, ∃ t, Host.Core.run Sys2Proof.core n s = .next t

end Sys2Proof.Machine
end

