-- ==== Sys2Proof/Certificates/Slice0/Obligations.lean ====
section
/-! DEFINITION. The statements for the provers, from the numbered rules of spec/. STATUS values are written as the numbers of 95_test_vectors.md: 0x000 OK/IDLE, 0x100 with RBIT, 0x001 to 0x004 the errors, 0x020 EXTRACT succeeded, 0x033 EXTRACT failed. -/

open Sys2Proof Sys2Proof.Machine

/-! ### Vocabulary of the statements, in the spec's own terms -/

/-- The words 30_encoding.md R94 lists as illegal, bit by bit, on an engine with these `WIDTHS`. -/
def Sys2Proof.IllegalByRule (p : Params) (word : BitVec 32) : Prop :=
  (word &&& 0xF#32 = 0#32 ∨ 7 ≤ (word &&& 0xF#32).toNat) ∨
  (word >>> 16 ≠ 0#32 ∨ word.getLsbD 7 = true) ∨
  (word &&& 0xF#32 = 1#32 ∧ word.getLsbD 6 = true) ∨
  (3 ≤ (word &&& 0xF#32).toNat ∧ word &&& 0xFF70#32 ≠ 0#32) ∨
  ((word >>> 4) &&& 3#32 = 1#32 ∧ p.wide16 = false) ∨
  ((word >>> 4) &&& 3#32 = 2#32 ∧ p.wide32 = false) ∨
  ((word >>> 4) &&& 3#32 = 3#32 ∧ p.wide64 = false)

/-- An address that is unmapped or a misaligned `REG` address (20_memory.md R62, R64 (a), (b)). -/
def Sys2Proof.BadAddress (p : Params) (a : Nat) : Prop :=
  (a < 0x40 ∧ a % 8 ≠ 0) ∨
  (0x40 ≤ a ∧ ¬ (0x01000000 ≤ a ∧ a < 0x01000000 + p.carMax) ∧
    ¬ (0x02000000 ≤ a ∧ a < 0x02000000 + p.txtMax) ∧
    ¬ (0x03000000 ≤ a ∧ a < 0x03000000 + p.bitsMax))

/-- A write of `CLEN`, `TLEN` or `BLEN` above its maximum (20_memory.md R64 (c)). -/
def Sys2Proof.BadLength (p : Params) (a : Nat) (data : Wide) : Prop :=
  (a = 0x18 ∧ p.carMax < data.toNat % 2 ^ 32) ∨
  (a = 0x20 ∧ p.txtMax < data.toNat % 2 ^ 32) ∨
  (a = 0x28 ∧ p.bitsMax < data.toNat % 2 ^ 32)

/-- Byte `j` that `B2T` folds: `fold8(BIT[8j .. 8j+8))` (40_bit_codec.md R129). -/
def Sys2Proof.bitGroup (s : State) (j : Nat) : Byte :=
  fold8 ((List.range 8).map (fun k => readBit s (8 * j + k)))

/-- Byte `j` of the framed message: the sentinel after the last byte (41_carrier_codec.md R162). -/
def Sys2Proof.framedByte (s : State) (j : Nat) : Byte :=
  if j < s.tlen.toNat then readTxt s j else 0x0A#8

/-- Every register but `STATUS`, the parameters and the model's own fields (log entries 1, 2, 5) are
the same in two states. -/
def Sys2Proof.SameRegisters (s t : State) : Prop :=
  t.cmd = s.cmd ∧ t.val = s.val ∧ t.clen = s.clen ∧ t.tlen = s.tlen ∧ t.blen = s.blen ∧
    t.gcnt = s.gcnt ∧ t.params = s.params ∧ t.epoch = s.epoch ∧ t.pending = s.pending ∧
    t.responses = s.responses

/-- The command words written out: `OP` in 3:0, `WSEL` in 5:4, `BIT` in 6, `POS` in 15:8, the rest 0
(30_encoding.md R91 to R93). -/
def Sys2Proof.wordNumber : Instr → Nat
  | .getbit .w8 pos => 0x01 + 0x100 * pos
  | .getbit .w16 pos => 0x11 + 0x100 * pos
  | .getbit .w32 pos => 0x21 + 0x100 * pos
  | .getbit .w64 pos => 0x31 + 0x100 * pos
  | .setbit .w8 pos bit => 0x02 + 0x40 * bit.toNat + 0x100 * pos
  | .setbit .w16 pos bit => 0x12 + 0x40 * bit.toNat + 0x100 * pos
  | .setbit .w32 pos bit => 0x22 + 0x40 * bit.toNat + 0x100 * pos
  | .setbit .w64 pos bit => 0x32 + 0x40 * bit.toNat + 0x100 * pos
  | .t2b => 0x03
  | .b2t => 0x04
  | .inject => 0x05
  | .extract => 0x06

/-! ### Encoding -/

/-- Words written out from the encodings of 30_encoding.md R93, R96 decode to their commands, and
words of R94 to none. -/
def Obligations.WrittenWordsDecode : Prop :=
  decodeTableWord 32 0x00000911 = some (.getbit .w16 9) ∧
  decodeTableWord 32 0x0000FF01 = some (.getbit .w8 255) ∧
  decodeTableWord 32 0x00003F72 = some (.setbit .w64 63 true) ∧
  decodeTableWord 32 0x00000002 = some (.setbit .w8 0 false) ∧
  decodeTableWord 32 0x00000003 = some .t2b ∧
  decodeTableWord 32 0x00000004 = some .b2t ∧
  decodeTableWord 32 0x00000005 = some .inject ∧
  decodeTableWord 32 0x00000006 = some .extract ∧
  decodeTableWord 32 0x00000000 = none ∧
  decodeTableWord 32 0x00000041 = none ∧
  decodeTableWord 32 0x00000103 = none

/-- 30_encoding.md R95: "At most one row can match." -/
def Obligations.AtMostOneRowMatches : Prop :=
  ∀ (word : Word) (r₁ r₂ : OpcodeRow), r₁ ∈ opcodeTable → r₂ ∈ opcodeTable →
    r₁.hits word = true → r₂.hits word = true → r₁ = r₂

/-- The assembler's word of every well-formed command decodes to it, on every engine (R92 to R96). -/
def Obligations.EncodedCommandDecodes : Prop :=
  ∀ (p : Params) (i : Instr), i.wellFormed p = true → decode p (encode i) = .ok i

/-- A word that decodes is the assembler's word of a well-formed command: no two words stand for one
command (R93, R96). -/
def Obligations.DecodedWordIsItsEncoding : Prop :=
  ∀ (p : Params) (word : Word) (i : Instr), decode p word = .ok i →
    i.wellFormed p = true ∧ encode i = word

/-- R90 to R93, R96: exactly the words written out in `wordNumber` decode to a command, each to its own. -/
def Obligations.WordsOfEachCommand : Prop :=
  ∀ (p : Params) (word : Word) (i : Instr),
    decode p word = .ok i ↔ i.wellFormed p = true ∧ word.toNat = wordNumber i

/-- R94: the illegal words are exactly those listed, and a `CMD` write of one stores it, performs no
operation and completes with `IllegalCommand`; every other word is a command. -/
def Obligations.IllegalWordsListedAndHarmless : Prop :=
  (∀ p : Params, IllegalByRule p 0x00000000#32 ∧ IllegalByRule p 0xFFFFFFFF#32) ∧
  ∀ (s : State) (rest : List HostEvent) (data : Wide), s.scan = none →
    s.pending = .write 0x00000000#32 data :: rest →
    (IllegalByRule s.params (data.setWidth 32) →
      step s = .next { s with
        pending := rest
        cmd := data.setWidth 32
        status := 0x004#32
        responses := { resp := .okay, data := none } :: s.responses }) ∧
    (¬ IllegalByRule s.params (data.setWidth 32) → ∃ i, decode s.params (data.setWidth 32) = .ok i)

/-! ### The step -/

/-- 10_state.md R22: a `CMD` write stores the word, executes the command it decodes to, to completion,
and returns `OKAY`. That a command can fault, and that its fault is then the step's, is the model's
choice, log entry 6 (the spec has no stop); so is the refusal of the host's form, which no command
answers. The lists of events and responses are log entries 1 and 2. -/
def Obligations.StepRunsDecodedCommand : Prop :=
  ∀ (s : State) (rest : List HostEvent) (data : Wide) (i : Instr), s.scan = none →
    s.pending = .write 0x00000000#32 data :: rest →
    decode s.params (data.setWidth 32) = .ok i →
    (∀ t, exec i { s with pending := rest, cmd := data.setWidth 32 } = .next t →
      step s = .next { t with responses := { resp := .okay, data := none } :: t.responses }) ∧
    (∀ f, exec i { s with pending := rest, cmd := data.setWidth 32 } = .fault f → step s = .fault f) ∧
    (∀ r, exec i { s with pending := rest, cmd := data.setWidth 32 } ≠ .refused r)

/-- A word placed by `withFetchWord` is run by the very next step (log entry 7). -/
def Obligations.PlacedWordRunsNext : Prop :=
  ∀ (s t : State) (word : Word) (i : Instr), decode s.params word = .ok i →
    exec i { s with cmd := word, scan := none } = .next t →
    step (s.withFetchWord 32 word.toNat) =
      .next { t with responses := { resp := .okay, data := none } :: t.responses }

/-- 60_exceptions.md R215: "Between commands the engine is idle and holds its state." -/
def Obligations.IdleEngineHoldsItsState : Prop :=
  ∀ s : State, s.scan = none → s.pending = [] → step s = .next s

/-- 20_memory.md R61, R71: a step takes exactly the host's oldest event, and every transaction, but not
a reset, returns one response. -/
def Obligations.StepServesOneEvent : Prop :=
  ∀ (s t : State) (e : HostEvent) (rest : List HostEvent), s.scan = none → s.pending = e :: rest →
    step s = .next t →
    t.pending = rest ∧ t.scan = none ∧
    (e = .reset → t.responses = s.responses) ∧
    (e ≠ .reset → ∃ r, t.responses = r :: s.responses)

/-- 10_state.md R35: the parameters "never change at run time". -/
def Obligations.ParametersNeverChange : Prop :=
  ∀ s t : State, step s = .next t → t.params = s.params

/-! ### The host bus -/

/-- 20_memory.md R64: a transaction gets `ERROR`, and changes no state, in exactly the cases (a) to
(c); every other one gets `OKAY`. -/
def Obligations.ErrorResponsesExactly : Prop :=
  ∀ (s : State) (rest : List HostEvent) (addr : Word), s.Inv →
    (s.pending = .read addr :: rest →
      (BadAddress s.params addr.toNat →
        ∃ r : Response, r.resp = .error ∧
          step s = .next { s with pending := rest, responses := r :: s.responses }) ∧
      (¬ BadAddress s.params addr.toNat →
        ∃ r : Response, r.resp = .okay ∧
          step s = .next { s with pending := rest, responses := r :: s.responses })) ∧
    (∀ data : Wide, s.pending = .write addr data :: rest →
      (BadAddress s.params addr.toNat ∨ BadLength s.params addr.toNat data →
        ∃ r : Response, r.resp = .error ∧
          step s = .next { s with pending := rest, responses := r :: s.responses }) ∧
      (¬ (BadAddress s.params addr.toNat ∨ BadLength s.params addr.toNat data) →
        ∃ (r : Response) (t : State), r.resp = .okay ∧ step s = .next t ∧
          t.responses = r :: s.responses))

/-- 20_memory.md R62, R63 (reads), R75: a read returns the register or cell at the address,
zero-extended to 64 bits, and changes nothing. -/
def Obligations.ReadsReturnTheirRegisterOrCell : Prop :=
  ∀ (s : State) (rest : List HostEvent) (addr : Word) (v : Wide), s.params.valid → s.scan = none →
    s.pending = .read addr :: rest →
    ((addr.toNat = 0x00 ∧ v.toNat = s.cmd.toNat) ∨
      (addr.toNat = 0x08 ∧ v.toNat = s.status.toNat) ∨
      (addr.toNat = 0x10 ∧ v = s.val) ∨
      (addr.toNat = 0x18 ∧ v.toNat = s.clen.toNat) ∨
      (addr.toNat = 0x20 ∧ v.toNat = s.tlen.toNat) ∨
      (addr.toNat = 0x28 ∧ v.toNat = s.blen.toNat) ∨
      (addr.toNat = 0x30 ∧ v.toNat = s.gcnt.toNat) ∨
      (∃ i, i < s.params.carMax ∧ addr.toNat = 0x01000000 + i ∧ v.toNat = (readCar s i).toNat) ∨
      (∃ i, i < s.params.txtMax ∧ addr.toNat = 0x02000000 + i ∧ v.toNat = (readTxt s i).toNat) ∨
      (∃ i, i < s.params.bitsMax ∧ addr.toNat = 0x03000000 + i ∧ v.toNat = (readBit s i).toNat)) →
    step s = .next { s with
      pending := rest
      responses := { resp := .okay, data := some v } :: s.responses }

/-- 10_state.md R28: `CFG` is hardwired, reads 0x00000F0A with all widths built in, and host writes of it
are ignored. On an engine with fewer widths the missing ones read 0 in `WMASK` (30_encoding.md R92);
that the model has such engines, and so the premise of all widths, is its choice, log entry 8. -/
def Obligations.CfgIsHardwired : Prop :=
  ∀ (s : State) (rest : List HostEvent), s.scan = none →
    (s.pending = .read 0x00000038#32 :: rest →
      ∃ c : Wide,
        step s = .next { s with
          pending := rest
          responses := { resp := .okay, data := some c } :: s.responses } ∧
        c.toNat % 256 = 0x0A ∧ c.getLsbD 8 = true ∧ c.getLsbD 9 = s.params.wide16 ∧
        c.getLsbD 10 = s.params.wide32 ∧ c.getLsbD 11 = s.params.wide64 ∧ c.toNat < 2 ^ 12 ∧
        (s.params.wide16 = true → s.params.wide32 = true → s.params.wide64 = true → c = 0xF0A#64)) ∧
    (∀ data, s.pending = .write 0x00000038#32 data :: rest →
      step s = .next { s with
        pending := rest
        responses := { resp := .okay, data := none } :: s.responses })

/-- 20_memory.md R65: writes of `STATUS`, `GCNT` and `CFG` return `OKAY` and change nothing; reserved
bits of `STATUS` and `CFG` read as 0. -/
def Obligations.ReadOnlyRegistersIgnoreWrites : Prop :=
  ∀ (s : State) (rest : List HostEvent), s.Inv →
    (∀ (addr : Word) (data : Wide), addr = 0x08#32 ∨ addr = 0x30#32 ∨ addr = 0x38#32 →
      s.pending = .write addr data :: rest →
      step s = .next { s with
        pending := rest
        responses := { resp := .okay, data := none } :: s.responses }) ∧
    (∀ (addr : Word) (reserved : Wide),
      (addr = 0x08#32 ∧ reserved = 0xFFFFFEC8#64) ∨ (addr = 0x38#32 ∧ reserved = 0xFFFFF000#64) →
      s.pending = .read addr :: rest →
      ∃ v : Wide, v &&& reserved = 0#64 ∧
        step s = .next { s with
          pending := rest
          responses := { resp := .okay, data := some v } :: s.responses })

/-- 10_state.md R21, R24 to R26, 20_memory.md R63 (registers): a write of `VAL` stores all 64 bits, a
write of a length register its low 32 bits when they are in range. -/
def Obligations.RegisterWritesStore : Prop :=
  ∀ (s : State) (rest : List HostEvent) (data : Wide), s.scan = none →
    (s.pending = .write 0x00000010#32 data :: rest →
      step s = .next { s with
        pending := rest, val := data
        responses := { resp := .okay, data := none } :: s.responses }) ∧
    (s.pending = .write 0x00000018#32 data :: rest → data.toNat % 2 ^ 32 ≤ s.params.carMax →
      step s = .next { s with
        pending := rest, clen := data.setWidth 32
        responses := { resp := .okay, data := none } :: s.responses }) ∧
    (s.pending = .write 0x00000020#32 data :: rest → data.toNat % 2 ^ 32 ≤ s.params.txtMax →
      step s = .next { s with
        pending := rest, tlen := data.setWidth 32
        responses := { resp := .okay, data := none } :: s.responses }) ∧
    (s.pending = .write 0x00000028#32 data :: rest → data.toNat % 2 ^ 32 ≤ s.params.bitsMax →
      step s = .next { s with
        pending := rest, blen := data.setWidth 32
        responses := { resp := .okay, data := none } :: s.responses })

/-- 20_memory.md R60, R63 (cells): a write of a cell stores the low 8 bits, or the low bit, of the data
in that cell, and changes no other cell of any space and no register. -/
def Obligations.CellWritesStoreOneCell : Prop :=
  ∀ (s : State) (rest : List HostEvent) (addr : Word) (data : Wide) (i : Nat), s.params.valid →
    s.scan = none → s.pending = .write addr data :: rest →
    (i < s.params.carMax → addr.toNat = 0x01000000 + i →
      ∃ t, step s = .next t ∧
        t = { s with
          pending := rest, car := t.car
          responses := { resp := .okay, data := none } :: s.responses } ∧
        (readCar t i).toNat = data.toNat % 256 ∧ ∀ j, j ≠ i → readCar t j = readCar s j) ∧
    (i < s.params.txtMax → addr.toNat = 0x02000000 + i →
      ∃ t, step s = .next t ∧
        t = { s with
          pending := rest, txt := t.txt
          responses := { resp := .okay, data := none } :: s.responses } ∧
        (readTxt t i).toNat = data.toNat % 256 ∧ ∀ j, j ≠ i → readTxt t j = readTxt s j) ∧
    (i < s.params.bitsMax → addr.toNat = 0x03000000 + i →
      ∃ t, step s = .next t ∧
        t = { s with
          pending := rest, bit := t.bit
          responses := { resp := .okay, data := none } :: s.responses } ∧
        readBit t i = data.getLsbD 0 ∧ ∀ j, j ≠ i → readBit t j = readBit s j)

/-! ### Reset -/

/-- 10_state.md R36: the registers after reset, no cell with a specified content (none listed: the
model's choice, log entry 4), no `EXTRACT` running. -/
def Obligations.ResetStateIsAsStated : Prop :=
  State.reset.cmd = 0#32 ∧ State.reset.status = 0#32 ∧ State.reset.val = 0#64 ∧
  State.reset.clen = 0#32 ∧ State.reset.tlen = 0#32 ∧ State.reset.blen = 0#32 ∧
  State.reset.gcnt = 0#32 ∧ readReg .cfg State.reset = 0xF0A#64 ∧
  (∀ i, Memory.lookup State.reset.car i = none ∧ Memory.lookup State.reset.txt i = none ∧
    Memory.lookup State.reset.bit i = none) ∧
  State.reset.scan = none

/-- 70_reset_and_hazards.md R240: the reset event puts every register at its reset value and makes every
cell unspecified, whatever the state; the engine then serves the host's next event. That what a cell
then reads is a free value of the new epoch is the model's choice, log entries 4 and 5. -/
def Obligations.ResetEventResetsEverything : Prop :=
  ∀ (s : State) (rest : List HostEvent), s.scan = none → s.pending = .reset :: rest →
    ∃ t, step s = .next t ∧
      t.cmd = 0#32 ∧ t.status = 0#32 ∧ t.val = 0#64 ∧ t.clen = 0#32 ∧ t.tlen = 0#32 ∧
      t.blen = 0#32 ∧ t.gcnt = 0#32 ∧ readReg .cfg t = readReg .cfg s ∧
      (∀ i, Memory.lookup t.car i = none ∧ Memory.lookup t.txt i = none ∧
        Memory.lookup t.bit i = none) ∧
      (∀ i, readCar t i = Config.unwrittenCar (s.epoch + 1) i ∧
        readTxt t i = Config.unwrittenTxt (s.epoch + 1) i ∧
        readBit t i = Config.unwrittenBit (s.epoch + 1) i) ∧
      t.scan = none ∧ t.params = s.params ∧ t.pending = rest ∧ t.responses = s.responses

/-! ### The bit primitives -/

/-- 40_bit_codec.md R120: `get_bit_fn(W, v, p)` is `(v >> p) & 1`, that is `(v / 2^p) % 2`, for W in
`WIDTHS`. -/
def Obligations.GetBitIsBinaryPosition : Prop :=
  ∀ (w : Width) (v : BitVec w.bits) (p : Nat), p < w.bits →
    (getBitFn v p = true ↔ v.toNat / 2 ^ p % 2 = 1)

/-- 40_bit_codec.md R121: the result has Bit b at position p and agrees with v at every other position;
the two shift-and-mask forms are equal; the source's examples. -/
def Obligations.SetBitChangesOnePosition : Prop :=
  (∀ (w : Width) (v : BitVec w.bits) (p : Nat) (b : Bit), p < w.bits →
    (∀ q, q < w.bits → (setBitFn v p b).getLsbD q = if q = p then b else v.getLsbD q) ∧
    setBitFn v p b = (v &&& ~~~(1#w.bits <<< p)) ||| ((BitVec.ofBool b).setWidth w.bits <<< p)) ∧
  setBitFn (7#8) 3 true = 15#8 ∧ setBitFn (255#8) 0 false = 254#8

/-- 40_bit_codec.md R126: format B, `OP` = 1, `BIT` = 0, W = 8 << `WSEL`; `GETBIT` completes below W with `RBIT` = `VAL[POS]`, and at or above W with
`OutOfRangeBitPosition` and `RBIT` = 0; nothing but `STATUS` changes. -/
def Obligations.GetbitResult : Prop :=
  ∀ (w : Width) (pos : Nat) (s : State),
    (∀ (p : Params) (word : Word), decode p word = .ok (.getbit w pos) →
      word.toNat % 16 = 1 ∧ word.getLsbD 6 = false ∧ w.bits = 8 * 2 ^ (word.toNat / 16 % 4) ∧
        pos = word.toNat / 256 % 256) ∧
    (pos < w.bits →
      exec (.getbit w pos) s =
        .next { s with status := if s.val.toNat / 2 ^ pos % 2 = 1 then 0x100#32 else 0x000#32 }) ∧
    (w.bits ≤ pos → exec (.getbit w pos) s = .next { s with status := 0x001#32 })

/-- 40_bit_codec.md R127: format B, `OP` = 2, W = 8 << `WSEL`; `SETBIT` completes below W with `VAL[POS]` = BIT, and at or above W with
`OutOfRangeBitPosition` and `VAL` unchanged. -/
def Obligations.SetbitResult : Prop :=
  ∀ (w : Width) (pos : Nat) (bit : Bit) (s : State),
    (∀ (p : Params) (word : Word), decode p word = .ok (.setbit w pos bit) →
      word.toNat % 16 = 2 ∧ word.getLsbD 6 = bit ∧ w.bits = 8 * 2 ^ (word.toNat / 16 % 4) ∧
        pos = word.toNat / 256 % 256) ∧
    (pos < w.bits →
      exec (.setbit w pos bit) s =
        .next { s with
          val := if bit then s.val ||| (1#64 <<< pos) else s.val &&& ~~~(1#64 <<< pos)
          status := 0x000#32 }) ∧
    (w.bits ≤ pos → exec (.setbit w pos bit) s = .next { s with status := 0x001#32 })

/-- 10_state.md R21, 40_bit_codec.md R127: after `SETBIT`, `VAL[W-1:0]` is
`set_bit_fn(W, VAL[W-1:0], POS, BIT)` and `VAL[63:W]` is unchanged. -/
def Obligations.SetbitActsOnTheSelectedWidth : Prop :=
  ∀ (w : Width) (pos : Nat) (bit : Bit) (s : State), pos < w.bits →
    ∃ t, exec (.setbit w pos bit) s = .next t ∧
      t.val.setWidth w.bits = setBitFn (s.val.setWidth w.bits) pos bit ∧
      t.val >>> w.bits = s.val >>> w.bits

/-- 40_bit_codec.md R130: `get_bit(set_bit(b, p, v), p) == v`, and the other positions read as before;
in command form, `GETBIT` after `SETBIT`. -/
def Obligations.SetBitThenGetBit : Prop :=
  ∀ (w : Width) (p q : Nat) (b : Bit), p < w.bits → q < w.bits →
    (∀ v : BitVec w.bits, getBitFn (setBitFn v p b) q = if q = p then b else getBitFn v q) ∧
    (∀ s t : State, exec (.setbit w p b) s = .next t →
      ∃ t' s', exec (.getbit w q) t = .next t' ∧ exec (.getbit w q) s = .next s' ∧
        rbitField t'.status = if q = p then b else rbitField s'.status)

/-- 10_state.md R21: `GETBIT` of width W does not see `VAL[63:W]`. -/
def Obligations.GetbitIgnoresHigherBits : Prop :=
  ∀ (w : Width) (pos : Nat) (s t : State) (v : Wide), v.setWidth w.bits = s.val.setWidth w.bits →
    exec (.getbit w pos) s = .next t → exec (.getbit w pos) { s with val := v } = .next { t with val := v }

/-! ### The serializer -/

/-- 40_bit_codec.md R122, 20_memory.md R66: MSB first; `fold8` is base-2 notation; the two are inverse. -/
def Obligations.ByteBitsAndFoldAreInverse : Prop :=
  (∀ b : Byte, byteBits b =
    [b.getLsbD 7, b.getLsbD 6, b.getLsbD 5, b.getLsbD 4, b.getLsbD 3, b.getLsbD 2, b.getLsbD 1,
      b.getLsbD 0]) ∧
  (∀ b : Byte, fold8 (byteBits b) = b) ∧
  (∀ g : List Bit, g.length = 8 → byteBits (fold8 g) = g) ∧
  (∀ g0 g1 g2 g3 g4 g5 g6 g7 : Bit, (fold8 [g0, g1, g2, g3, g4, g5, g6, g7]).toNat =
    g0.toNat * 128 + g1.toNat * 64 + g2.toNat * 32 + g3.toNat * 16 + g4.toNat * 8 + g5.toNat * 4 +
      g6.toNat * 2 + g7.toNat)

/-- 40_bit_codec.md R124: length `8 * byte_count`, and element i is position `7 - i % 8` of byte
`i / 8`. -/
def Obligations.TextToBitsElements : Prop :=
  ∀ t : List Byte, (textToBitsFn t).length = 8 * t.length ∧
    ∀ i, i < 8 * t.length →
      (textToBitsFn t)[i]? = (t[i / 8]?).map (fun b => b.getLsbD (7 - i % 8))

/-- 40_bit_codec.md R125: `bits_to_text_fn(text_to_bits_fn(t))` is t if t is well-formed UTF-8 and
`DecodeError` otherwise; a length that is not a multiple of 8 is `DecodeError`. -/
def Obligations.BitsToTextInvertsTextToBits : Prop :=
  (∀ t : List Byte, bitsToTextFn (textToBitsFn t) = if utf8Valid t then some t else none) ∧
  (∀ bits : List Bit, bits.length % 8 ≠ 0 → bitsToTextFn bits = none)

/-- 40_bit_codec.md R123: the automaton accepts exactly the concatenations of the table's byte
patterns. -/
def Obligations.Utf8AutomatonAcceptsTheTable : Prop :=
  ∀ bytes : List Byte, utf8Valid bytes = true ↔ WellFormedUtf8 bytes

/-- 40_bit_codec.md R123, 41_carrier_codec.md R169: 0x0A is accepted only at a character boundary. -/
def Obligations.SentinelOnlyAtCharacterBoundary : Prop :=
  ∀ (bytes : List Byte) (u u' : Utf8State), utf8Run utf8Start bytes = some u →
    utf8Step u 0x0A#8 = some u' → u.need = 0 ∧ utf8Valid bytes = true

/-- 40_bit_codec.md R128: word 0x3; `T2B` completes, `BIT[0..8*TLEN)` holds the bits of `TXT[0..TLEN)`, `BLEN` is
`8*TLEN`; the other cells and everything else but `STATUS` stay. -/
def Obligations.T2bResult : Prop :=
  (∀ p : Params, decode p 0x00000003#32 = .ok .t2b) ∧
  ∀ s : State, s.params.valid → s.tlen.toNat ≤ s.params.txtMax →
    ∃ t, exec .t2b s = .next t ∧
      t = { s with bit := t.bit, blen := t.blen, status := 0x000#32 } ∧
      t.blen.toNat = 8 * s.tlen.toNat ∧
      (∀ j k, j < s.tlen.toNat → k < 8 → readBit t (8 * j + k) = (readTxt s j).getLsbD (7 - k)) ∧
      (∀ i, 8 * s.tlen.toNat ≤ i → readBit t i = readBit s i)

/-- 40_bit_codec.md R129: word 0x4; `B2T` on whole groups of well-formed UTF-8 completes with the bytes in
`TXT[0..BLEN/8)` and `TLEN` = `BLEN/8`; otherwise `DecodeError`, and only `STATUS` changes. -/
def Obligations.B2tResult : Prop :=
  (∀ p : Params, decode p 0x00000004#32 = .ok .b2t) ∧
  ∀ s : State, s.params.valid → s.blen.toNat ≤ s.params.bitsMax →
    (s.blen.toNat % 8 = 0 → utf8Valid ((List.range (s.blen.toNat / 8)).map (bitGroup s)) = true →
      ∃ t, exec .b2t s = .next t ∧
        t = { s with txt := t.txt, tlen := t.tlen, status := 0x000#32 } ∧
        t.tlen.toNat = s.blen.toNat / 8 ∧
        (∀ j, j < s.blen.toNat / 8 → readTxt t j = bitGroup s j) ∧
        (∀ j, s.blen.toNat / 8 ≤ j → readTxt t j = readTxt s j)) ∧
    (s.blen.toNat % 8 ≠ 0 ∨
        utf8Valid ((List.range (s.blen.toNat / 8)).map (bitGroup s)) = false →
      exec .b2t s = .next { s with status := 0x003#32 })

/-- `T2B` then `B2T` gives the text back when it is well-formed UTF-8 (R125 in command form). -/
def Obligations.T2bThenB2tRestoresTheText : Prop :=
  ∀ s : State, s.params.valid → s.tlen.toNat ≤ s.params.txtMax →
    utf8Valid (txtCells s s.tlen.toNat) = true →
    ∃ t u, exec .t2b s = .next t ∧ exec .b2t t = .next u ∧ u.status = 0x000#32 ∧ u.tlen = s.tlen ∧
      ∀ j, readTxt u j = readTxt s j

/-! ### The carrier codec -/

/-- 41_carrier_codec.md R160: the framed message has one byte more, its stream `8 * (len(m) + 1)` bits,
the last eight being 0,0,0,0,1,0,1,0. -/
def Obligations.FramedStreamEndsInTheSentinel : Prop :=
  ∀ m : List Byte, frame m = m ++ [0x0A#8] ∧
    (textToBitsFn (frame m)).length = 8 * (m.length + 1) ∧
    (textToBitsFn (frame m)).drop (8 * m.length) =
      [false, false, false, false, true, false, true, false]

/-- 41_carrier_codec.md R162: word 0x5; `INJECT` with enough carrier completes: position 0 of `CAR[8j+k]` is
position `7-k` of byte j of the framed message, positions 7:1 and all other cells stay. With too
little, `CapacityError`, and only `STATUS` changes. -/
def Obligations.InjectResult : Prop :=
  (∀ p : Params, decode p 0x00000005#32 = .ok .inject) ∧
  ∀ s : State,
    (s.clen.toNat < 8 * (s.tlen.toNat + 1) → exec .inject s = .next { s with status := 0x002#32 }) ∧
    (s.clen.toNat ≤ s.params.carMax → s.tlen.toNat ≤ s.params.txtMax →
      8 * (s.tlen.toNat + 1) ≤ s.clen.toNat →
      ∃ t, exec .inject s = .next t ∧
        t = { s with car := t.car, status := 0x000#32 } ∧
        (∀ j k, j < s.tlen.toNat + 1 → k < 8 →
          readCar t (8 * j + k) = (readCar s (8 * j + k) &&& 0xFE#8) |||
            (if (framedByte s j).getLsbD (7 - k) then 1#8 else 0#8)) ∧
        (∀ i, 8 * (s.tlen.toNat + 1) ≤ i → readCar t i = readCar s i))

/-- 41_carrier_codec.md R161: `INJECT` computes `inject_fn(CAR[0..CLEN), TXT[0..TLEN))` in place. -/
def Obligations.InjectComputesInjectFn : Prop :=
  ∀ s : State, s.clen.toNat ≤ s.params.carMax → s.tlen.toNat ≤ s.params.txtMax →
    (injectFn (carCells s s.clen.toNat) (txtCells s s.tlen.toNat) = none →
      exec .inject s = .next { s with status := 0x002#32 }) ∧
    (∀ r, injectFn (carCells s s.clen.toNat) (txtCells s s.tlen.toNat) = some r →
      ∃ t, exec .inject s = .next t ∧ t.status = 0x000#32 ∧ carCells t s.clen.toNat = r ∧
        r.length = s.clen.toNat)

/-- 41_carrier_codec.md R163: one bit short fails with `CapacityError`, exactly enough succeeds, and
every shorter carrier fails; on the function and on the command. -/
def Obligations.CapacityBoundary : Prop :=
  (∀ c m : List Byte, (c.length < 8 * (m.length + 1) → injectFn c m = none) ∧
    (c.length = 8 * (m.length + 1) - 1 → injectFn c m = none) ∧
    (c.length = 8 * (m.length + 1) → ∃ r, injectFn c m = some r ∧ r.length = c.length)) ∧
  ∀ s : State, s.clen.toNat ≤ s.params.carMax → s.tlen.toNat ≤ s.params.txtMax →
    (s.clen.toNat = 8 * (s.tlen.toNat + 1) - 1 →
      exec .inject s = .next { s with status := 0x002#32 }) ∧
    (s.clen.toNat = 8 * (s.tlen.toNat + 1) →
      ∃ t, exec .inject s = .next t ∧ t.status = 0x000#32)

/-- 41_carrier_codec.md R164: after a successful `INJECT`, positions 7:1 of every carrier byte are what
they were, and a byte at or beyond `8*(TLEN+1)` is what it was. -/
def Obligations.InjectTouchesOnlyLsbs : Prop :=
  ∀ s t : State, exec .inject s = .next t → t.status = 0x000#32 →
    (∀ i, (readCar t i) >>> 1 = (readCar s i) >>> 1) ∧
    (∀ i, 8 * (s.tlen.toNat + 1) ≤ i → readCar t i = readCar s i)

/-- 41_carrier_codec.md R165, R167 to R170: the four transitions of the extract state machine, and
that TERMINATED and FAILED are terminal. -/
def Obligations.ExtractTransitions : Prop :=
  ∀ (s : State) (x : Scan),
    (x.phase = .scanning → s.clen.toNat < 8 * x.g + 8 →
      scanTransition s x = { x with phase := .failed }) ∧
    (x.phase = .scanning → 8 * x.g + 8 ≤ s.clen.toNat → utf8Step x.u (groupByte s x.g) = none →
      scanTransition s x = { x with phase := .failed, g := x.g + 1 }) ∧
    (x.phase = .scanning → 8 * x.g + 8 ≤ s.clen.toNat →
      ∀ u, utf8Step x.u (groupByte s x.g) = some u → groupByte s x.g = 0x0A#8 →
      scanTransition s x = { x with phase := .terminated, g := x.g + 1 }) ∧
    (x.phase = .scanning → 8 * x.g + 8 ≤ s.clen.toNat →
      ∀ u, utf8Step x.u (groupByte s x.g) = some u → groupByte s x.g ≠ 0x0A#8 →
      scanTransition s x = { x with g := x.g + 1, acc := x.acc ++ [groupByte s x.g], u := u }) ∧
    (x.phase ≠ .scanning → scanTransition s x = x)

/-- 41_carrier_codec.md R174: at most `CLEN / 8 + 1` transitions reach a terminal state, from which more
transitions change nothing. -/
def Obligations.ExtractScanTerminates : Prop :=
  ∀ (s : State) (n : Nat), s.clen.toNat / 8 + 1 ≤ n →
    ∃ x, (runScan n (beginScan s)).scan = some x ∧ x.phase ≠ .scanning ∧
      (runScan (s.clen.toNat / 8 + 1) (beginScan s)).scan = some x

/-- 41_carrier_codec.md R166, R169, R171: when the first 0x0A of the folded LSB bytes is byte n and the
bytes before it are well-formed UTF-8, `EXTRACT` completes with those n bytes as the text. -/
def Obligations.ExtractDeliversTheText : Prop :=
  ∀ (s : State) (n : Nat), s.params.valid → s.clen.toNat ≤ s.params.carMax →
    8 * (n + 1) ≤ s.clen.toNat → groupByte s n = 0x0A#8 →
    (∀ j, j < n → groupByte s j ≠ 0x0A#8) →
    utf8Valid ((List.range n).map (groupByte s)) = true →
    ∃ t, exec .extract s = .next t ∧
      t = { s with txt := t.txt, tlen := t.tlen, gcnt := t.gcnt, status := 0x020#32, scan := none } ∧
      t.tlen.toNat = n ∧ t.gcnt.toNat = n + 1 ∧
      (∀ j, j < n → readTxt t j = groupByte s j) ∧
      (∀ j, n ≤ j → readTxt t j = readTxt s j)

/-- 41_carrier_codec.md R176: `EXTRACT` computes `extract_fn(CAR[0..CLEN))`: its text, or `DecodeError`
with `TXT` and `TLEN` unchanged, and its group count. -/
def Obligations.ExtractComputesExtractFn : Prop :=
  ∀ s : State, s.params.valid → s.clen.toNat ≤ s.params.carMax →
    (∀ text, (extractFn (carCells s s.clen.toNat)).text = some text →
      ∃ t, exec .extract s = .next t ∧
        t = { s with txt := t.txt, tlen := t.tlen, gcnt := t.gcnt, status := 0x020#32, scan := none } ∧
        txtCells t t.tlen.toNat = text ∧ t.tlen.toNat = text.length ∧
        t.gcnt.toNat = (extractFn (carCells s s.clen.toNat)).groups ∧
        t.gcnt.toNat = text.length + 1 ∧
        (∀ j, text.length ≤ j → readTxt t j = readTxt s j)) ∧
    ((extractFn (carCells s s.clen.toNat)).text = none →
      exec .extract s = .next { s with
        gcnt := BitVec.ofNat 32 (extractFn (carCells s s.clen.toNat)).groups
        status := 0x033#32
        scan := none })

/-- 41_carrier_codec.md R172: the outcome of `EXTRACT` depends on `CLEN` and the cells
`CAR[0 .. 8*GCNT)` alone. -/
def Obligations.ExtractReadSet : Prop :=
  ∀ s s' t : State, exec .extract s = .next t → s'.params = s.params → s'.clen = s.clen →
    (∀ i, i < 8 * t.gcnt.toNat → readCar s' i = readCar s i) →
    ∃ t', exec .extract s' = .next t' ∧ t'.status = t.status ∧ t'.gcnt = t.gcnt ∧
      (t.status = 0x020#32 → t'.tlen = t.tlen ∧
        ∀ j, j < t.tlen.toNat → readTxt t' j = readTxt t j)

/-- 10_state.md R34, 41_carrier_codec.md R166, 20_memory.md R71: the atomic `EXTRACT` is what its small
steps reach: from the started scan, at most `CLEN / 8 + 2` steps of the machine give the same state,
with the `OKAY` of the `CMD` write. That the machine has such steps is the model's choice, log entry
9. -/
def Obligations.ExtractSmallStepsReachTheAtomicResult : Prop :=
  ∀ s t : State, exec .extract s = .next t →
    ∃ n, n ≤ s.clen.toNat / 8 + 2 ∧
      Host.Core.run Sys2Proof.core n (beginScan s) =
        .next { t with responses := { resp := .okay, data := none } :: t.responses }

/-- 41_carrier_codec.md R173: the round trip, on the functions and in command form. -/
def Obligations.RoundTrip : Prop :=
  (∀ c m r : List Byte, injectFn c m = some r → utf8Valid m = true → 0x0A#8 ∉ m →
    (extractFn r).text = some m) ∧
  (∀ c m : List Byte, 8 * (m.length + 1) ≤ c.length → ∃ r, injectFn c m = some r) ∧
  (∀ s : State, s.params.valid → s.clen.toNat ≤ s.params.carMax → s.tlen.toNat ≤ s.params.txtMax →
    8 * (s.tlen.toNat + 1) ≤ s.clen.toNat → utf8Valid (txtCells s s.tlen.toNat) = true →
    0x0A#8 ∉ txtCells s s.tlen.toNat →
    ∃ t u, exec .inject s = .next t ∧ exec .extract t = .next u ∧ u.status = 0x020#32 ∧
      u.tlen = s.tlen ∧ u.gcnt.toNat = s.tlen.toNat + 1 ∧
      ∀ j, readTxt u j = readTxt s j)

/-- 41_carrier_codec.md R175 (a): a message is truncated at its first sentinel byte; not an error. That
this holds for every `b`, also one that makes the message ill-formed only after its first sentinel
(R175 (b) by its letter), is the model's reading, log entry 11. -/
def Obligations.EmbeddedSentinelTruncates : Prop :=
  ∀ c a b r : List Byte, injectFn c (a ++ 0x0A#8 :: b) = some r → utf8Valid a = true → 0x0A#8 ∉ a →
    extractFn r = { text := some a, groups := a.length + 1 }

/-- 41_carrier_codec.md R175 (b): a message without a sentinel that is not well-formed UTF-8 is injected
without complaint, and its extraction fails. The premise that there is no sentinel is log entry 11's. -/
def Obligations.IllFormedMessageFailsToExtract : Prop :=
  ∀ c m : List Byte, 8 * (m.length + 1) ≤ c.length → utf8Valid m = false → 0x0A#8 ∉ m →
    ∃ r, injectFn c m = some r ∧ (extractFn r).text = none

/-! ### Errors and frames -/

/-- 60_exceptions.md R200, 10_state.md R23: the outcomes each command can leave in `STATUS`. -/
def Obligations.CommandOutcomes : Prop :=
  ∀ s t : State,
    (∀ w pos, exec (.getbit w pos) s = .next t →
      t.status = 0x000#32 ∨ t.status = 0x100#32 ∨ t.status = 0x001#32) ∧
    (∀ w pos b, exec (.setbit w pos b) s = .next t → t.status = 0x000#32 ∨ t.status = 0x001#32) ∧
    (exec .t2b s = .next t → t.status = 0x000#32) ∧
    (exec .b2t s = .next t → t.status = 0x000#32 ∨ t.status = 0x003#32) ∧
    (exec .inject s = .next t → t.status = 0x000#32 ∨ t.status = 0x002#32) ∧
    (exec .extract s = .next t → t.status = 0x020#32 ∨ t.status = 0x033#32)

/-- 60_exceptions.md R208, R209: a failing command changes only `STATUS` and, for `EXTRACT`, `GCNT`
(and the internal state of the scan ceases to exist). -/
def Obligations.FailingCommandChangesNothing : Prop :=
  ∀ (i : Instr) (s t : State), exec i s = .next t → errField t.status ≠ 0#3 →
    t = { s with status := t.status, gcnt := t.gcnt, scan := t.scan } ∧
    rbitField t.status = false ∧
    (i ≠ .extract → t.gcnt = s.gcnt ∧ t.scan = s.scan ∧ fsmField t.status = 0#2) ∧
    (i = .extract → t.scan = none ∧ fsmField t.status = 3#2)

/-- 10_state.md R33, R23: no command's behaviour depends on `STATUS`. -/
def Obligations.CommandsIgnoreStatus : Prop :=
  ∀ (i : Instr) (s : State) (status : Word), exec i { s with status := status } = exec i s

/-- 10_state.md R37, frame of the bit primitives: `GETBIT` writes `STATUS` only, `SETBIT` also position
`POS` of `VAL`; every other register and every cell stays. -/
def Obligations.BitPrimitiveFrame : Prop :=
  ∀ (w : Width) (pos : Nat) (b : Bit) (s t : State),
    (exec (.getbit w pos) s = .next t → SameRegisters s t ∧ t.scan = s.scan) ∧
    (exec (.setbit w pos b) s = .next t →
      SameRegisters { s with val := t.val } t ∧ t.scan = s.scan ∧
      ∀ q, q < 64 → q ≠ pos → t.val.getLsbD q = s.val.getLsbD q) ∧
    (exec (.getbit w pos) s = .next t ∨ exec (.setbit w pos b) s = .next t →
      ∀ a, readCar t a = readCar s a ∧ readTxt t a = readTxt s a ∧ readBit t a = readBit s a)

/-- 10_state.md R37, 20_memory.md R77, frame of the serializer: `T2B` writes `BIT[0..8*TLEN)`, `BLEN` and
`STATUS`; `B2T` writes `TXT[0..BLEN/8)`, `TLEN` and `STATUS`; nothing else changes. -/
def Obligations.SerializerFrame : Prop :=
  ∀ s t : State,
    (exec .t2b s = .next t →
      SameRegisters { s with blen := t.blen } t ∧ t.scan = s.scan ∧
      ∀ a, readCar t a = readCar s a ∧ readTxt t a = readTxt s a ∧
        (8 * s.tlen.toNat ≤ a → readBit t a = readBit s a)) ∧
    (exec .b2t s = .next t →
      SameRegisters { s with tlen := t.tlen } t ∧ t.scan = s.scan ∧
      ∀ a, readCar t a = readCar s a ∧ readBit t a = readBit s a ∧
        (s.blen.toNat / 8 ≤ a → readTxt t a = readTxt s a))

/-- 10_state.md R37, 20_memory.md R77, frame of the carrier codec: `INJECT` writes `CAR[0..8*(TLEN+1))`
and `STATUS`; `EXTRACT` writes `TXT[0..GCNT-1)`, `TLEN`, `GCNT` and `STATUS`; nothing else changes. -/
def Obligations.CarrierCodecFrame : Prop :=
  ∀ s t : State,
    (exec .inject s = .next t →
      SameRegisters s t ∧ t.scan = s.scan ∧
      ∀ a, readTxt t a = readTxt s a ∧ readBit t a = readBit s a ∧
        (8 * (s.tlen.toNat + 1) ≤ a → readCar t a = readCar s a)) ∧
    (exec .extract s = .next t →
      SameRegisters { s with tlen := t.tlen, gcnt := t.gcnt } t ∧ t.scan = none ∧
      ∀ a, readCar t a = readCar s a ∧ readBit t a = readBit s a ∧
        (t.gcnt.toNat - 1 ≤ a → readTxt t a = readTxt s a))

/-! ### Invariants and safety -/

/-- The invariant holds straight after reset (10_state.md R36, R38). -/
def Obligations.ResetMeetsTheInvariant : Prop := State.reset.Inv

/-- 10_state.md R38: every step keeps the invariants. -/
def Obligations.StepKeepsTheInvariant : Prop :=
  ∀ s t : State, s.Inv → step s = .next t → t.Inv

/-- 41_carrier_codec.md R174, 20_memory.md R70: from a state that meets the invariants the machine goes
on: no fault, no refusal, whatever the host does and whatever the memories hold. -/
def Obligations.InvariantStatesGoOn : Prop :=
  ∀ s : State, s.Inv → s.GoesOn

/-- No run of any length from a state that meets the invariants stops. -/
def Obligations.RunsNeverStop : Prop :=
  ∀ s : State, s.Inv → s.NeverStops

/-- Every command completes, with its effect or its error, in every state that meets the invariants. -/
def Obligations.CommandsAlwaysEnd : Prop :=
  ∀ (i : Instr) (s : State), s.Inv → ∃ t, exec i s = .next t
end

