-- ==== Sys2Proof/Laws/BitCodec.lean ====
section
/-! SUPPORT. The laws of the Bit Codec's functions (40_bit_codec.md R120 to R125). -/

namespace Sys2Proof.Machine

open Sys2Proof

/-- The shift-and-mask form reads the bit at the position. -/
theorem getBitFn_eq_getLsbD {W : Nat} (v : BitVec W) {p : Nat} (h : p < W) :
    getBitFn v p = v.getLsbD p := by
  have hW : 0 < W := by omega
  unfold getBitFn
  cases hb : v.getLsbD p with
  | true =>
    rw [beq_iff_eq]
    apply BitVec.eq_of_getLsbD_eq
    intro i hi
    by_cases h0 : i = 0
    · subst h0; simp [hb, hW]
    · simp [BitVec.getLsbD_one, h0]
  | false =>
    rw [beq_eq_false_iff_ne]
    intro hc
    have := congrArg (fun x => x.getLsbD 0) hc
    simp [hb, hW] at this

/-- The shift-and-mask form sets one position and keeps the others. -/
theorem getLsbD_setBitFn {W : Nat} (v : BitVec W) {p q : Nat} (b : Bit) (hq : q < W) :
    (setBitFn v p b).getLsbD q = if q = p then b else v.getLsbD q := by
  unfold setBitFn
  have hW : 0 < W := by omega
  cases b
  · simp only [Bool.false_eq_true, if_false, BitVec.getLsbD_and, BitVec.getLsbD_not,
      BitVec.getLsbD_shiftLeft, BitVec.getLsbD_one]
    by_cases h : q = p
    · subst h; simp [hq, hW]
    · have : ¬ (p ≤ q ∧ q - p = 0) := by omega
      by_cases h2 : q < p
      · simp [hq, h, h2]
      · have : q - p ≠ 0 := by omega
        simp [hq, h, this]
  · simp only [if_true, BitVec.getLsbD_or, BitVec.getLsbD_shiftLeft, BitVec.getLsbD_one]
    by_cases h : q = p
    · subst h; simp [hq, hW]
    · by_cases h2 : q < p
      · simp [hq, h, h2]
      · have : q - p ≠ 0 := by omega
        simp [hq, h, this]

/-- The bits of a byte, MSB first (20_memory.md R66). -/
theorem byteBits_eq (b : Byte) : byteBits b =
    [b.getLsbD 7, b.getLsbD 6, b.getLsbD 5, b.getLsbD 4, b.getLsbD 3, b.getLsbD 2, b.getLsbD 1,
      b.getLsbD 0] := by
  have h : List.range 8 = [0, 1, 2, 3, 4, 5, 6, 7] := rfl
  simp [byteBits, h, getBitFn_eq_getLsbD]

@[simp] theorem length_byteBits (b : Byte) : (byteBits b).length = 8 := by simp [byteBits]

theorem getElem?_byteBits (b : Byte) {k : Nat} (h : k < 8) :
    (byteBits b)[k]? = some (b.getLsbD (7 - k)) := by
  rw [byteBits, List.getElem?_map, List.getElem?_range h, Option.map_some,
    getBitFn_eq_getLsbD _ (by omega)]

theorem fold8_byteBits (b : Byte) : fold8 (byteBits b) = b := by
  rw [byteBits_eq]
  revert b
  decide

theorem exists_eight {g : List Bit} (h : g.length = 8) :
    ∃ a b c d e f k l, g = [a, b, c, d, e, f, k, l] := by
  match g, h with
  | [a, b, c, d, e, f, k, l], _ => exact ⟨a, b, c, d, e, f, k, l, rfl⟩

theorem byteBits_fold8 {g : List Bit} (h : g.length = 8) : byteBits (fold8 g) = g := by
  obtain ⟨a, b, c, d, e, f, k, l, rfl⟩ := exists_eight h
  rw [byteBits_eq]
  revert a b c d e f k l
  decide

@[simp] theorem textToBitsFn_nil : textToBitsFn [] = [] := rfl

@[simp] theorem textToBitsFn_cons (b : Byte) (t : List Byte) :
    textToBitsFn (b :: t) = byteBits b ++ textToBitsFn t := by simp [textToBitsFn]

@[simp] theorem textToBitsFn_append (t t' : List Byte) :
    textToBitsFn (t ++ t') = textToBitsFn t ++ textToBitsFn t' := by simp [textToBitsFn]

@[simp] theorem length_textToBitsFn (t : List Byte) : (textToBitsFn t).length = 8 * t.length := by
  induction t with
  | nil => rfl
  | cons b t ih => simp [ih]; omega

/-- Stream bit `8j+k` is position `7-k` of byte `j`. -/
theorem getElem?_textToBitsFn (t : List Byte) (j : Nat) {k : Nat} (h : k < 8) :
    (textToBitsFn t)[8 * j + k]? = (t[j]?).map (fun b => b.getLsbD (7 - k)) := by
  induction t generalizing j with
  | nil => simp
  | cons b t ih =>
    rw [textToBitsFn_cons]
    cases j with
    | zero =>
      rw [List.getElem?_append_left (by simp; omega)]
      simp [getElem?_byteBits b h]
    | succ j =>
      rw [List.getElem?_append_right (by simp; omega)]
      have : 8 * (j + 1) + k - (byteBits b).length = 8 * j + k := by simp; omega
      rw [this, ih]
      simp

/-- Group `j` of a serialized text is the bits of byte `j`. -/
theorem group_textToBitsFn (t : List Byte) {j : Nat} (h : j < t.length) :
    ((textToBitsFn t).drop (8 * j)).take 8 = byteBits t[j] := by
  apply List.ext_getElem?
  intro k
  rw [List.getElem?_take]
  by_cases hk : k < 8
  · rw [if_pos hk, List.getElem?_drop, getElem?_textToBitsFn t j hk, getElem?_byteBits _ hk,
      List.getElem?_eq_getElem h]
    rfl
  · rw [if_neg hk, List.getElem?_eq_none (by simp; omega)]

theorem groupBytes_textToBitsFn (t : List Byte) : groupBytes (textToBitsFn t) = t := by
  apply List.ext_getElem
  · simp [groupBytes]
  · intro j h1 h2
    simp only [groupBytes, List.getElem_map, List.getElem_range]
    rw [group_textToBitsFn t h2, fold8_byteBits]

theorem utf8Run_append (u : Utf8State) (a b : List Byte) :
    utf8Run u (a ++ b) = (utf8Run u a).bind (fun u' => utf8Run u' b) := by
  induction a generalizing u with
  | nil => rfl
  | cons x a ih =>
    simp only [List.cons_append, utf8Run]
    cases utf8Step u x with
    | none => rfl
    | some u' => exact ih u'

/-- A valid text ends at a character boundary. -/
theorem utf8Valid_iff (bytes : List Byte) :
    utf8Valid bytes = true ↔ ∃ u, utf8Run utf8Start bytes = some u ∧ u.need = 0 := by
  unfold utf8Valid
  cases utf8Run utf8Start bytes <;> simp

end Sys2Proof.Machine
end

