-- ==== Sys2Proof/Laws/Flags.lean ====
section
/-! SUPPORT. What the fields of a packed `STATUS` read (10_state.md R23). -/

namespace Sys2Proof.Machine

open Sys2Proof

@[simp] theorem errField_packStatus (err : Err) (fsm : Fsm) (rbit : Bit) :
    errField (packStatus err fsm rbit) = errCode err := by
  cases err <;> cases fsm <;> cases rbit <;> rfl

@[simp] theorem fsmField_packStatus (err : Err) (fsm : Fsm) (rbit : Bit) :
    fsmField (packStatus err fsm rbit) = fsmCode fsm := by
  cases err <;> cases fsm <;> cases rbit <;> rfl

@[simp] theorem rbitField_packStatus (err : Err) (fsm : Fsm) (rbit : Bit) :
    rbitField (packStatus err fsm rbit) = rbit := by
  cases err <;> cases fsm <;> cases rbit <;> rfl

/-- Reserved bits of a packed `STATUS` are 0. -/
@[simp] theorem packStatus_reserved (err : Err) (fsm : Fsm) (rbit : Bit) :
    packStatus err fsm rbit &&& statusReserved = 0#32 := by
  cases err <;> cases fsm <;> cases rbit <;> rfl

/-- Codes 5 to 7 are never produced (60_exceptions.md R200). -/
theorem errCode_le (err : Err) : (errCode err).toNat ≤ 4 := by cases err <;> decide

theorem errCode_eq_zero_iff (err : Err) : errCode err = 0#3 ↔ err = .ok := by
  cases err <;> simp [errCode]

theorem fsmCode_eq_scanning_iff (fsm : Fsm) : fsmCode fsm = fsmCode .scanning ↔ fsm = .scanning := by
  cases fsm <;> simp [fsmCode]

end Sys2Proof.Machine
end

