-- ==== Sys2Proof/Laws/Memory.lean ====
section
/-! SUPPORT. The laws of the memory operations: read after write, the canonical form, the range of the listed indices. -/

namespace Sys2Proof.Machine.Memory

variable {α : Type}

@[simp] theorem lookup_nil (i : Nat) : lookup ([] : Memory α) i = none := rfl

/-- A read of the written cell gives the written value. -/
@[simp] theorem lookup_write_self (m : Memory α) (i : Nat) (v : α) : lookup (write m i v) i = some v := by
  induction m with
  | nil => simp [write, lookup]
  | cons c m ih =>
    obtain ⟨j, x⟩ := c
    by_cases hlt : i < j
    · simp [write, lookup, hlt]
    · by_cases heq : i = j
      · simp [write, lookup, heq]
      · simp [write, lookup, hlt, heq, ih]

/-- A write leaves every other cell alone. -/
theorem lookup_write_of_ne (m : Memory α) {i k : Nat} (v : α) (h : k ≠ i) :
    lookup (write m i v) k = lookup m k := by
  induction m with
  | nil => simp [write, lookup, h]
  | cons c m ih =>
    obtain ⟨j, x⟩ := c
    by_cases hlt : i < j
    · simp [write, lookup, hlt, h]
    · by_cases heq : i = j
      · subst heq
        simp [write, lookup, h]
      · simp [write, lookup, hlt, heq, ih]

/-- What a cell holds after a sequence was written from index `i` on. -/
theorem lookup_writeList (vs : List α) (m : Memory α) (i k : Nat) :
    lookup (writeList m i vs) k = if i ≤ k ∧ k < i + vs.length then vs[k - i]? else lookup m k := by
  induction vs generalizing m i with
  | nil => simp [writeList]
  | cons v vs ih =>
    rw [writeList, ih]
    by_cases hk : k = i
    · subst hk
      simp
    · rw [lookup_write_of_ne m v hk]
      by_cases hin : i + 1 ≤ k ∧ k < i + 1 + vs.length
      · obtain ⟨d, rfl⟩ : ∃ d, k = i + 1 + d := ⟨k - (i + 1), by omega⟩
        have h1 : i + 1 + d - (i + 1) = d := by omega
        have h2 : i + 1 + d - i = d + 1 := by omega
        simp only [h1, h2, List.getElem?_cons_succ, List.length_cons]
        rw [if_pos hin, if_pos (by omega)]
      · rw [if_neg hin, if_neg (by simp only [List.length_cons]; omega)]

theorem risesFrom_mono {lo lo' : Nat} {m : Memory α} (h : risesFrom lo m = true) (hle : lo' ≤ lo) :
    risesFrom lo' m = true := by
  cases m with
  | nil => rfl
  | cons c m =>
    simp only [risesFrom, Bool.and_eq_true, decide_eq_true_eq] at h ⊢
    exact ⟨by omega, h.2⟩

theorem risesFrom_write {lo : Nat} {m : Memory α} {i : Nat} (v : α) (h : risesFrom lo m = true)
    (hi : lo ≤ i) : risesFrom lo (write m i v) = true := by
  induction m generalizing lo with
  | nil => simp [write, risesFrom, hi]
  | cons c m ih =>
    obtain ⟨j, x⟩ := c
    simp only [risesFrom, Bool.and_eq_true, decide_eq_true_eq] at h
    by_cases hlt : i < j
    · simp [write, risesFrom, hlt, hi, h.2]
    · by_cases heq : i = j
      · simp [write, risesFrom, heq, h.1, h.2]
      · have := ih (lo := j + 1) h.2 (by omega)
        simp [write, risesFrom, hlt, heq, h.1, this]

/-- A write keeps the canonical form. -/
theorem wf_write {m : Memory α} (h : wf m = true) (i : Nat) (v : α) : wf (write m i v) = true :=
  risesFrom_write v h (Nat.zero_le i)

/-- Writing a sequence keeps the canonical form. -/
theorem wf_writeList {m : Memory α} (h : wf m = true) (i : Nat) (vs : List α) :
    wf (writeList m i vs) = true := by
  induction vs generalizing m i with
  | nil => exact h
  | cons v vs ih => exact ih (wf_write h i v) (i + 1)

/-- A write of an existing cell lists only existing cells. -/
theorem within_write {m : Memory α} {n i : Nat} (h : within m n = true) (v : α) (hi : i < n) :
    within (write m i v) n = true := by
  induction m with
  | nil => simp [write, within, hi]
  | cons c m ih =>
    obtain ⟨j, x⟩ := c
    simp only [within, List.all_cons, Bool.and_eq_true, decide_eq_true_eq] at h ih ⊢
    by_cases hlt : i < j
    · simp [write, hlt, hi, h.1, h.2]
    · by_cases heq : i = j
      · simp [write, heq, h.1, h.2]
      · simp [write, hlt, heq, h.1, ih h.2]

/-- Writing a sequence to existing cells lists only existing cells. -/
theorem within_writeList {m : Memory α} {n : Nat} (vs : List α) (i : Nat) (h : within m n = true)
    (hi : i + vs.length ≤ n) : within (writeList m i vs) n = true := by
  induction vs generalizing m i with
  | nil => exact h
  | cons v vs ih =>
    simp only [List.length_cons] at hi
    exact ih (i + 1) (within_write h v (by omega)) (by omega)

theorem lookup_eq_none_of_risesFrom {lo k : Nat} {m : Memory α} (h : risesFrom lo m = true)
    (hk : k < lo) : lookup m k = none := by
  induction m generalizing lo with
  | nil => rfl
  | cons c m ih =>
    obtain ⟨j, x⟩ := c
    simp only [risesFrom, Bool.and_eq_true, decide_eq_true_eq] at h
    rw [lookup, if_neg (by omega)]
    exact ih h.2 (by omega)

theorem eq_of_lookup_of_risesFrom {lo : Nat} {m m' : Memory α} (h : risesFrom lo m = true)
    (h' : risesFrom lo m' = true) (hl : ∀ k, lookup m k = lookup m' k) : m = m' := by
  induction m generalizing m' lo with
  | nil =>
    cases m' with
    | nil => rfl
    | cons c m' => simpa [lookup] using hl c.1
  | cons c m ih =>
    obtain ⟨j, x⟩ := c
    cases m' with
    | nil => simpa [lookup] using hl j
    | cons c' m' =>
      obtain ⟨j', x'⟩ := c'
      simp only [risesFrom, Bool.and_eq_true, decide_eq_true_eq] at h h'
      have hj : j = j' := by
        rcases Nat.lt_trichotomy j j' with hlt | heq | hgt
        · have := hl j
          rw [lookup, if_pos rfl, lookup, if_neg (by omega),
            lookup_eq_none_of_risesFrom h'.2 (by omega)] at this
          simp at this
        · exact heq
        · have := hl j'
          rw [lookup, if_neg (by omega), lookup_eq_none_of_risesFrom h.2 (by omega), lookup,
            if_pos rfl] at this
          simp at this
      subst hj
      have hx : x = x' := by simpa [lookup] using hl j
      subst hx
      have hm : ∀ k, lookup m k = lookup m' k := by
        intro k
        have := hl k
        by_cases hk : k = j
        · subst hk
          rw [lookup_eq_none_of_risesFrom h.2 (by omega), lookup_eq_none_of_risesFrom h'.2 (by omega)]
        · simpa [lookup, hk] using this
      rw [ih h.2 h'.2 hm]

/-- Memories in canonical form that read alike are equal data. -/
theorem eq_of_lookup {m m' : Memory α} (h : wf m = true) (h' : wf m' = true)
    (hl : ∀ k, lookup m k = lookup m' k) : m = m' :=
  eq_of_lookup_of_risesFrom h h' hl

end Sys2Proof.Machine.Memory
end

