-- ==== Sys2Proof/Laws/State.lean ====
section
/-! SUPPORT. One lemma per field per update of State, so that no proof unfolds a record update. -/

namespace Sys2Proof.Machine

open Sys2Proof

section
variable (i : Nat) (v : Byte) (s : State)
@[simp] theorem writeCar_params : (writeCar i v s).params = s.params := rfl
@[simp] theorem writeCar_cmd : (writeCar i v s).cmd = s.cmd := rfl
@[simp] theorem writeCar_status : (writeCar i v s).status = s.status := rfl
@[simp] theorem writeCar_val : (writeCar i v s).val = s.val := rfl
@[simp] theorem writeCar_clen : (writeCar i v s).clen = s.clen := rfl
@[simp] theorem writeCar_tlen : (writeCar i v s).tlen = s.tlen := rfl
@[simp] theorem writeCar_blen : (writeCar i v s).blen = s.blen := rfl
@[simp] theorem writeCar_gcnt : (writeCar i v s).gcnt = s.gcnt := rfl
@[simp] theorem writeCar_car : (writeCar i v s).car = Memory.write s.car i v := rfl
@[simp] theorem writeCar_txt : (writeCar i v s).txt = s.txt := rfl
@[simp] theorem writeCar_bit : (writeCar i v s).bit = s.bit := rfl
@[simp] theorem writeCar_scan : (writeCar i v s).scan = s.scan := rfl
@[simp] theorem writeCar_epoch : (writeCar i v s).epoch = s.epoch := rfl
@[simp] theorem writeCar_pending : (writeCar i v s).pending = s.pending := rfl
@[simp] theorem writeCar_responses : (writeCar i v s).responses = s.responses := rfl
end

section
variable (i : Nat) (v : Byte) (s : State)
@[simp] theorem writeTxt_params : (writeTxt i v s).params = s.params := rfl
@[simp] theorem writeTxt_cmd : (writeTxt i v s).cmd = s.cmd := rfl
@[simp] theorem writeTxt_status : (writeTxt i v s).status = s.status := rfl
@[simp] theorem writeTxt_val : (writeTxt i v s).val = s.val := rfl
@[simp] theorem writeTxt_clen : (writeTxt i v s).clen = s.clen := rfl
@[simp] theorem writeTxt_tlen : (writeTxt i v s).tlen = s.tlen := rfl
@[simp] theorem writeTxt_blen : (writeTxt i v s).blen = s.blen := rfl
@[simp] theorem writeTxt_gcnt : (writeTxt i v s).gcnt = s.gcnt := rfl
@[simp] theorem writeTxt_car : (writeTxt i v s).car = s.car := rfl
@[simp] theorem writeTxt_txt : (writeTxt i v s).txt = Memory.write s.txt i v := rfl
@[simp] theorem writeTxt_bit : (writeTxt i v s).bit = s.bit := rfl
@[simp] theorem writeTxt_scan : (writeTxt i v s).scan = s.scan := rfl
@[simp] theorem writeTxt_epoch : (writeTxt i v s).epoch = s.epoch := rfl
@[simp] theorem writeTxt_pending : (writeTxt i v s).pending = s.pending := rfl
@[simp] theorem writeTxt_responses : (writeTxt i v s).responses = s.responses := rfl
end

section
variable (i : Nat) (v : Bit) (s : State)
@[simp] theorem writeBit_params : (writeBit i v s).params = s.params := rfl
@[simp] theorem writeBit_cmd : (writeBit i v s).cmd = s.cmd := rfl
@[simp] theorem writeBit_status : (writeBit i v s).status = s.status := rfl
@[simp] theorem writeBit_val : (writeBit i v s).val = s.val := rfl
@[simp] theorem writeBit_clen : (writeBit i v s).clen = s.clen := rfl
@[simp] theorem writeBit_tlen : (writeBit i v s).tlen = s.tlen := rfl
@[simp] theorem writeBit_blen : (writeBit i v s).blen = s.blen := rfl
@[simp] theorem writeBit_gcnt : (writeBit i v s).gcnt = s.gcnt := rfl
@[simp] theorem writeBit_car : (writeBit i v s).car = s.car := rfl
@[simp] theorem writeBit_txt : (writeBit i v s).txt = s.txt := rfl
@[simp] theorem writeBit_bit : (writeBit i v s).bit = Memory.write s.bit i v := rfl
@[simp] theorem writeBit_scan : (writeBit i v s).scan = s.scan := rfl
@[simp] theorem writeBit_epoch : (writeBit i v s).epoch = s.epoch := rfl
@[simp] theorem writeBit_pending : (writeBit i v s).pending = s.pending := rfl
@[simp] theorem writeBit_responses : (writeBit i v s).responses = s.responses := rfl
end

section
variable (bytes : List Byte) (s : State)
@[simp] theorem storeCar_params : (storeCar bytes s).params = s.params := rfl
@[simp] theorem storeCar_cmd : (storeCar bytes s).cmd = s.cmd := rfl
@[simp] theorem storeCar_status : (storeCar bytes s).status = s.status := rfl
@[simp] theorem storeCar_val : (storeCar bytes s).val = s.val := rfl
@[simp] theorem storeCar_clen : (storeCar bytes s).clen = s.clen := rfl
@[simp] theorem storeCar_tlen : (storeCar bytes s).tlen = s.tlen := rfl
@[simp] theorem storeCar_blen : (storeCar bytes s).blen = s.blen := rfl
@[simp] theorem storeCar_gcnt : (storeCar bytes s).gcnt = s.gcnt := rfl
@[simp] theorem storeCar_car : (storeCar bytes s).car = Memory.writeList s.car 0 bytes := rfl
@[simp] theorem storeCar_txt : (storeCar bytes s).txt = s.txt := rfl
@[simp] theorem storeCar_bit : (storeCar bytes s).bit = s.bit := rfl
@[simp] theorem storeCar_scan : (storeCar bytes s).scan = s.scan := rfl
@[simp] theorem storeCar_epoch : (storeCar bytes s).epoch = s.epoch := rfl
@[simp] theorem storeCar_pending : (storeCar bytes s).pending = s.pending := rfl
@[simp] theorem storeCar_responses : (storeCar bytes s).responses = s.responses := rfl
end

section
variable (bytes : List Byte) (s : State)
@[simp] theorem storeTxt_params : (storeTxt bytes s).params = s.params := rfl
@[simp] theorem storeTxt_cmd : (storeTxt bytes s).cmd = s.cmd := rfl
@[simp] theorem storeTxt_status : (storeTxt bytes s).status = s.status := rfl
@[simp] theorem storeTxt_val : (storeTxt bytes s).val = s.val := rfl
@[simp] theorem storeTxt_clen : (storeTxt bytes s).clen = s.clen := rfl
@[simp] theorem storeTxt_tlen : (storeTxt bytes s).tlen = s.tlen := rfl
@[simp] theorem storeTxt_blen : (storeTxt bytes s).blen = s.blen := rfl
@[simp] theorem storeTxt_gcnt : (storeTxt bytes s).gcnt = s.gcnt := rfl
@[simp] theorem storeTxt_car : (storeTxt bytes s).car = s.car := rfl
@[simp] theorem storeTxt_txt : (storeTxt bytes s).txt = Memory.writeList s.txt 0 bytes := rfl
@[simp] theorem storeTxt_bit : (storeTxt bytes s).bit = s.bit := rfl
@[simp] theorem storeTxt_scan : (storeTxt bytes s).scan = s.scan := rfl
@[simp] theorem storeTxt_epoch : (storeTxt bytes s).epoch = s.epoch := rfl
@[simp] theorem storeTxt_pending : (storeTxt bytes s).pending = s.pending := rfl
@[simp] theorem storeTxt_responses : (storeTxt bytes s).responses = s.responses := rfl
end

section
variable (bits : List Bit) (s : State)
@[simp] theorem storeBit_params : (storeBit bits s).params = s.params := rfl
@[simp] theorem storeBit_cmd : (storeBit bits s).cmd = s.cmd := rfl
@[simp] theorem storeBit_status : (storeBit bits s).status = s.status := rfl
@[simp] theorem storeBit_val : (storeBit bits s).val = s.val := rfl
@[simp] theorem storeBit_clen : (storeBit bits s).clen = s.clen := rfl
@[simp] theorem storeBit_tlen : (storeBit bits s).tlen = s.tlen := rfl
@[simp] theorem storeBit_blen : (storeBit bits s).blen = s.blen := rfl
@[simp] theorem storeBit_gcnt : (storeBit bits s).gcnt = s.gcnt := rfl
@[simp] theorem storeBit_car : (storeBit bits s).car = s.car := rfl
@[simp] theorem storeBit_txt : (storeBit bits s).txt = s.txt := rfl
@[simp] theorem storeBit_bit : (storeBit bits s).bit = Memory.writeList s.bit 0 bits := rfl
@[simp] theorem storeBit_scan : (storeBit bits s).scan = s.scan := rfl
@[simp] theorem storeBit_epoch : (storeBit bits s).epoch = s.epoch := rfl
@[simp] theorem storeBit_pending : (storeBit bits s).pending = s.pending := rfl
@[simp] theorem storeBit_responses : (storeBit bits s).responses = s.responses := rfl
end

section
variable (v : Wide) (s : State)
@[simp] theorem setVal_params : (setVal v s).params = s.params := rfl
@[simp] theorem setVal_cmd : (setVal v s).cmd = s.cmd := rfl
@[simp] theorem setVal_status : (setVal v s).status = s.status := rfl
@[simp] theorem setVal_val : (setVal v s).val = v := rfl
@[simp] theorem setVal_clen : (setVal v s).clen = s.clen := rfl
@[simp] theorem setVal_tlen : (setVal v s).tlen = s.tlen := rfl
@[simp] theorem setVal_blen : (setVal v s).blen = s.blen := rfl
@[simp] theorem setVal_gcnt : (setVal v s).gcnt = s.gcnt := rfl
@[simp] theorem setVal_car : (setVal v s).car = s.car := rfl
@[simp] theorem setVal_txt : (setVal v s).txt = s.txt := rfl
@[simp] theorem setVal_bit : (setVal v s).bit = s.bit := rfl
@[simp] theorem setVal_scan : (setVal v s).scan = s.scan := rfl
@[simp] theorem setVal_epoch : (setVal v s).epoch = s.epoch := rfl
@[simp] theorem setVal_pending : (setVal v s).pending = s.pending := rfl
@[simp] theorem setVal_responses : (setVal v s).responses = s.responses := rfl
end

section
variable (n : Word) (s : State)
@[simp] theorem setClen_params : (setClen n s).params = s.params := rfl
@[simp] theorem setClen_cmd : (setClen n s).cmd = s.cmd := rfl
@[simp] theorem setClen_status : (setClen n s).status = s.status := rfl
@[simp] theorem setClen_val : (setClen n s).val = s.val := rfl
@[simp] theorem setClen_clen : (setClen n s).clen = n := rfl
@[simp] theorem setClen_tlen : (setClen n s).tlen = s.tlen := rfl
@[simp] theorem setClen_blen : (setClen n s).blen = s.blen := rfl
@[simp] theorem setClen_gcnt : (setClen n s).gcnt = s.gcnt := rfl
@[simp] theorem setClen_car : (setClen n s).car = s.car := rfl
@[simp] theorem setClen_txt : (setClen n s).txt = s.txt := rfl
@[simp] theorem setClen_bit : (setClen n s).bit = s.bit := rfl
@[simp] theorem setClen_scan : (setClen n s).scan = s.scan := rfl
@[simp] theorem setClen_epoch : (setClen n s).epoch = s.epoch := rfl
@[simp] theorem setClen_pending : (setClen n s).pending = s.pending := rfl
@[simp] theorem setClen_responses : (setClen n s).responses = s.responses := rfl
end

section
variable (n : Word) (s : State)
@[simp] theorem setTlen_params : (setTlen n s).params = s.params := rfl
@[simp] theorem setTlen_cmd : (setTlen n s).cmd = s.cmd := rfl
@[simp] theorem setTlen_status : (setTlen n s).status = s.status := rfl
@[simp] theorem setTlen_val : (setTlen n s).val = s.val := rfl
@[simp] theorem setTlen_clen : (setTlen n s).clen = s.clen := rfl
@[simp] theorem setTlen_tlen : (setTlen n s).tlen = n := rfl
@[simp] theorem setTlen_blen : (setTlen n s).blen = s.blen := rfl
@[simp] theorem setTlen_gcnt : (setTlen n s).gcnt = s.gcnt := rfl
@[simp] theorem setTlen_car : (setTlen n s).car = s.car := rfl
@[simp] theorem setTlen_txt : (setTlen n s).txt = s.txt := rfl
@[simp] theorem setTlen_bit : (setTlen n s).bit = s.bit := rfl
@[simp] theorem setTlen_scan : (setTlen n s).scan = s.scan := rfl
@[simp] theorem setTlen_epoch : (setTlen n s).epoch = s.epoch := rfl
@[simp] theorem setTlen_pending : (setTlen n s).pending = s.pending := rfl
@[simp] theorem setTlen_responses : (setTlen n s).responses = s.responses := rfl
end

section
variable (n : Word) (s : State)
@[simp] theorem setBlen_params : (setBlen n s).params = s.params := rfl
@[simp] theorem setBlen_cmd : (setBlen n s).cmd = s.cmd := rfl
@[simp] theorem setBlen_status : (setBlen n s).status = s.status := rfl
@[simp] theorem setBlen_val : (setBlen n s).val = s.val := rfl
@[simp] theorem setBlen_clen : (setBlen n s).clen = s.clen := rfl
@[simp] theorem setBlen_tlen : (setBlen n s).tlen = s.tlen := rfl
@[simp] theorem setBlen_blen : (setBlen n s).blen = n := rfl
@[simp] theorem setBlen_gcnt : (setBlen n s).gcnt = s.gcnt := rfl
@[simp] theorem setBlen_car : (setBlen n s).car = s.car := rfl
@[simp] theorem setBlen_txt : (setBlen n s).txt = s.txt := rfl
@[simp] theorem setBlen_bit : (setBlen n s).bit = s.bit := rfl
@[simp] theorem setBlen_scan : (setBlen n s).scan = s.scan := rfl
@[simp] theorem setBlen_epoch : (setBlen n s).epoch = s.epoch := rfl
@[simp] theorem setBlen_pending : (setBlen n s).pending = s.pending := rfl
@[simp] theorem setBlen_responses : (setBlen n s).responses = s.responses := rfl
end

section
variable (n : Word) (s : State)
@[simp] theorem setGcnt_params : (setGcnt n s).params = s.params := rfl
@[simp] theorem setGcnt_cmd : (setGcnt n s).cmd = s.cmd := rfl
@[simp] theorem setGcnt_status : (setGcnt n s).status = s.status := rfl
@[simp] theorem setGcnt_val : (setGcnt n s).val = s.val := rfl
@[simp] theorem setGcnt_clen : (setGcnt n s).clen = s.clen := rfl
@[simp] theorem setGcnt_tlen : (setGcnt n s).tlen = s.tlen := rfl
@[simp] theorem setGcnt_blen : (setGcnt n s).blen = s.blen := rfl
@[simp] theorem setGcnt_gcnt : (setGcnt n s).gcnt = n := rfl
@[simp] theorem setGcnt_car : (setGcnt n s).car = s.car := rfl
@[simp] theorem setGcnt_txt : (setGcnt n s).txt = s.txt := rfl
@[simp] theorem setGcnt_bit : (setGcnt n s).bit = s.bit := rfl
@[simp] theorem setGcnt_scan : (setGcnt n s).scan = s.scan := rfl
@[simp] theorem setGcnt_epoch : (setGcnt n s).epoch = s.epoch := rfl
@[simp] theorem setGcnt_pending : (setGcnt n s).pending = s.pending := rfl
@[simp] theorem setGcnt_responses : (setGcnt n s).responses = s.responses := rfl
end

section
variable (w : Word) (s : State)
@[simp] theorem setCmd_params : (setCmd w s).params = s.params := rfl
@[simp] theorem setCmd_cmd : (setCmd w s).cmd = w := rfl
@[simp] theorem setCmd_status : (setCmd w s).status = s.status := rfl
@[simp] theorem setCmd_val : (setCmd w s).val = s.val := rfl
@[simp] theorem setCmd_clen : (setCmd w s).clen = s.clen := rfl
@[simp] theorem setCmd_tlen : (setCmd w s).tlen = s.tlen := rfl
@[simp] theorem setCmd_blen : (setCmd w s).blen = s.blen := rfl
@[simp] theorem setCmd_gcnt : (setCmd w s).gcnt = s.gcnt := rfl
@[simp] theorem setCmd_car : (setCmd w s).car = s.car := rfl
@[simp] theorem setCmd_txt : (setCmd w s).txt = s.txt := rfl
@[simp] theorem setCmd_bit : (setCmd w s).bit = s.bit := rfl
@[simp] theorem setCmd_scan : (setCmd w s).scan = s.scan := rfl
@[simp] theorem setCmd_epoch : (setCmd w s).epoch = s.epoch := rfl
@[simp] theorem setCmd_pending : (setCmd w s).pending = s.pending := rfl
@[simp] theorem setCmd_responses : (setCmd w s).responses = s.responses := rfl
end

section
variable (x : Option Scan) (s : State)
@[simp] theorem setScan_params : (setScan x s).params = s.params := rfl
@[simp] theorem setScan_cmd : (setScan x s).cmd = s.cmd := rfl
@[simp] theorem setScan_status : (setScan x s).status = s.status := rfl
@[simp] theorem setScan_val : (setScan x s).val = s.val := rfl
@[simp] theorem setScan_clen : (setScan x s).clen = s.clen := rfl
@[simp] theorem setScan_tlen : (setScan x s).tlen = s.tlen := rfl
@[simp] theorem setScan_blen : (setScan x s).blen = s.blen := rfl
@[simp] theorem setScan_gcnt : (setScan x s).gcnt = s.gcnt := rfl
@[simp] theorem setScan_car : (setScan x s).car = s.car := rfl
@[simp] theorem setScan_txt : (setScan x s).txt = s.txt := rfl
@[simp] theorem setScan_bit : (setScan x s).bit = s.bit := rfl
@[simp] theorem setScan_scan : (setScan x s).scan = x := rfl
@[simp] theorem setScan_epoch : (setScan x s).epoch = s.epoch := rfl
@[simp] theorem setScan_pending : (setScan x s).pending = s.pending := rfl
@[simp] theorem setScan_responses : (setScan x s).responses = s.responses := rfl
end

section
variable (fsm : Fsm) (rbit : Bit) (s : State)
@[simp] theorem complete_params : (complete fsm rbit s).params = s.params := rfl
@[simp] theorem complete_cmd : (complete fsm rbit s).cmd = s.cmd := rfl
@[simp] theorem complete_status : (complete fsm rbit s).status = packStatus .ok fsm rbit := rfl
@[simp] theorem complete_val : (complete fsm rbit s).val = s.val := rfl
@[simp] theorem complete_clen : (complete fsm rbit s).clen = s.clen := rfl
@[simp] theorem complete_tlen : (complete fsm rbit s).tlen = s.tlen := rfl
@[simp] theorem complete_blen : (complete fsm rbit s).blen = s.blen := rfl
@[simp] theorem complete_gcnt : (complete fsm rbit s).gcnt = s.gcnt := rfl
@[simp] theorem complete_car : (complete fsm rbit s).car = s.car := rfl
@[simp] theorem complete_txt : (complete fsm rbit s).txt = s.txt := rfl
@[simp] theorem complete_bit : (complete fsm rbit s).bit = s.bit := rfl
@[simp] theorem complete_scan : (complete fsm rbit s).scan = s.scan := rfl
@[simp] theorem complete_epoch : (complete fsm rbit s).epoch = s.epoch := rfl
@[simp] theorem complete_pending : (complete fsm rbit s).pending = s.pending := rfl
@[simp] theorem complete_responses : (complete fsm rbit s).responses = s.responses := rfl
end

section
variable (r : Response) (s : State)
@[simp] theorem respond_params : (respond r s).params = s.params := rfl
@[simp] theorem respond_cmd : (respond r s).cmd = s.cmd := rfl
@[simp] theorem respond_status : (respond r s).status = s.status := rfl
@[simp] theorem respond_val : (respond r s).val = s.val := rfl
@[simp] theorem respond_clen : (respond r s).clen = s.clen := rfl
@[simp] theorem respond_tlen : (respond r s).tlen = s.tlen := rfl
@[simp] theorem respond_blen : (respond r s).blen = s.blen := rfl
@[simp] theorem respond_gcnt : (respond r s).gcnt = s.gcnt := rfl
@[simp] theorem respond_car : (respond r s).car = s.car := rfl
@[simp] theorem respond_txt : (respond r s).txt = s.txt := rfl
@[simp] theorem respond_bit : (respond r s).bit = s.bit := rfl
@[simp] theorem respond_scan : (respond r s).scan = s.scan := rfl
@[simp] theorem respond_epoch : (respond r s).epoch = s.epoch := rfl
@[simp] theorem respond_pending : (respond r s).pending = s.pending := rfl
@[simp] theorem respond_responses : (respond r s).responses = r :: s.responses := rfl
end

section
variable (events : List HostEvent) (s : State)
@[simp] theorem setPending_params : (setPending events s).params = s.params := rfl
@[simp] theorem setPending_cmd : (setPending events s).cmd = s.cmd := rfl
@[simp] theorem setPending_status : (setPending events s).status = s.status := rfl
@[simp] theorem setPending_val : (setPending events s).val = s.val := rfl
@[simp] theorem setPending_clen : (setPending events s).clen = s.clen := rfl
@[simp] theorem setPending_tlen : (setPending events s).tlen = s.tlen := rfl
@[simp] theorem setPending_blen : (setPending events s).blen = s.blen := rfl
@[simp] theorem setPending_gcnt : (setPending events s).gcnt = s.gcnt := rfl
@[simp] theorem setPending_car : (setPending events s).car = s.car := rfl
@[simp] theorem setPending_txt : (setPending events s).txt = s.txt := rfl
@[simp] theorem setPending_bit : (setPending events s).bit = s.bit := rfl
@[simp] theorem setPending_scan : (setPending events s).scan = s.scan := rfl
@[simp] theorem setPending_epoch : (setPending events s).epoch = s.epoch := rfl
@[simp] theorem setPending_pending : (setPending events s).pending = events := rfl
@[simp] theorem setPending_responses : (setPending events s).responses = s.responses := rfl
end

section
variable (err : Err) (s : State)
@[simp] theorem raise_none_params : (raise err none s).params = s.params := rfl
@[simp] theorem raise_none_cmd : (raise err none s).cmd = s.cmd := rfl
@[simp] theorem raise_none_status : (raise err none s).status = packStatus err .idle false := rfl
@[simp] theorem raise_none_val : (raise err none s).val = s.val := rfl
@[simp] theorem raise_none_clen : (raise err none s).clen = s.clen := rfl
@[simp] theorem raise_none_tlen : (raise err none s).tlen = s.tlen := rfl
@[simp] theorem raise_none_blen : (raise err none s).blen = s.blen := rfl
@[simp] theorem raise_none_gcnt : (raise err none s).gcnt = s.gcnt := rfl
@[simp] theorem raise_none_car : (raise err none s).car = s.car := rfl
@[simp] theorem raise_none_txt : (raise err none s).txt = s.txt := rfl
@[simp] theorem raise_none_bit : (raise err none s).bit = s.bit := rfl
@[simp] theorem raise_none_scan : (raise err none s).scan = s.scan := rfl
@[simp] theorem raise_none_epoch : (raise err none s).epoch = s.epoch := rfl
@[simp] theorem raise_none_pending : (raise err none s).pending = s.pending := rfl
@[simp] theorem raise_none_responses : (raise err none s).responses = s.responses := rfl
end

section
variable (err : Err) (g : Nat) (s : State)
@[simp] theorem raise_some_params : (raise err (some g) s).params = s.params := rfl
@[simp] theorem raise_some_cmd : (raise err (some g) s).cmd = s.cmd := rfl
@[simp] theorem raise_some_status : (raise err (some g) s).status = packStatus err .failed false := rfl
@[simp] theorem raise_some_val : (raise err (some g) s).val = s.val := rfl
@[simp] theorem raise_some_clen : (raise err (some g) s).clen = s.clen := rfl
@[simp] theorem raise_some_tlen : (raise err (some g) s).tlen = s.tlen := rfl
@[simp] theorem raise_some_blen : (raise err (some g) s).blen = s.blen := rfl
@[simp] theorem raise_some_gcnt : (raise err (some g) s).gcnt = BitVec.ofNat 32 g := rfl
@[simp] theorem raise_some_car : (raise err (some g) s).car = s.car := rfl
@[simp] theorem raise_some_txt : (raise err (some g) s).txt = s.txt := rfl
@[simp] theorem raise_some_bit : (raise err (some g) s).bit = s.bit := rfl
@[simp] theorem raise_some_scan : (raise err (some g) s).scan = s.scan := rfl
@[simp] theorem raise_some_epoch : (raise err (some g) s).epoch = s.epoch := rfl
@[simp] theorem raise_some_pending : (raise err (some g) s).pending = s.pending := rfl
@[simp] theorem raise_some_responses : (raise err (some g) s).responses = s.responses := rfl
end

section
variable (s : State)
@[simp] theorem applyReset_params : (applyReset s).params = s.params := rfl
@[simp] theorem applyReset_cmd : (applyReset s).cmd = 0#32 := rfl
@[simp] theorem applyReset_status : (applyReset s).status = 0#32 := rfl
@[simp] theorem applyReset_val : (applyReset s).val = 0#64 := rfl
@[simp] theorem applyReset_clen : (applyReset s).clen = 0#32 := rfl
@[simp] theorem applyReset_tlen : (applyReset s).tlen = 0#32 := rfl
@[simp] theorem applyReset_blen : (applyReset s).blen = 0#32 := rfl
@[simp] theorem applyReset_gcnt : (applyReset s).gcnt = 0#32 := rfl
@[simp] theorem applyReset_car : (applyReset s).car = [] := rfl
@[simp] theorem applyReset_txt : (applyReset s).txt = [] := rfl
@[simp] theorem applyReset_bit : (applyReset s).bit = [] := rfl
@[simp] theorem applyReset_scan : (applyReset s).scan = none := rfl
@[simp] theorem applyReset_epoch : (applyReset s).epoch = s.epoch + 1 := rfl
@[simp] theorem applyReset_pending : (applyReset s).pending = s.pending := rfl
@[simp] theorem applyReset_responses : (applyReset s).responses = s.responses := rfl
end

end Sys2Proof.Machine
end

