-- ==== Sys2Proof/Laws/Ops.lean ====
section
/-! SUPPORT. What the shared operations do: reads after writes of cells, sequences of cells, the range check of engine accesses. -/

namespace Sys2Proof.Machine

open Sys2Proof

theorem getD_of_lookup_writeList {α : Type} (m : Memory α) (vs : List α) (k : Nat) (d : α) :
    (Memory.lookup (Memory.writeList m 0 vs) k).getD d = (vs[k]?).getD ((Memory.lookup m k).getD d) := by
  rw [Memory.lookup_writeList]
  by_cases h : k < vs.length
  · simp [h]
  · simp [h]

/-- A read of `CAR` depends on the memory and the epoch alone. -/
theorem readCar_congr {s t : State} (hm : t.car = s.car) (he : t.epoch = s.epoch) (i : Nat) :
    readCar t i = readCar s i := by simp [readCar, hm, he]

theorem readTxt_congr {s t : State} (hm : t.txt = s.txt) (he : t.epoch = s.epoch) (i : Nat) :
    readTxt t i = readTxt s i := by simp [readTxt, hm, he]

theorem readBit_congr {s t : State} (hm : t.bit = s.bit) (he : t.epoch = s.epoch) (i : Nat) :
    readBit t i = readBit s i := by simp [readBit, hm, he]

theorem readCar_writeCar (s : State) (i k : Nat) (v : Byte) :
    readCar (writeCar i v s) k = if k = i then v else readCar s k := by
  by_cases h : k = i
  · subst h; simp [readCar]
  · simp [readCar, Memory.lookup_write_of_ne _ _ h, h]

theorem readTxt_writeTxt (s : State) (i k : Nat) (v : Byte) :
    readTxt (writeTxt i v s) k = if k = i then v else readTxt s k := by
  by_cases h : k = i
  · subst h; simp [readTxt]
  · simp [readTxt, Memory.lookup_write_of_ne _ _ h, h]

theorem readBit_writeBit (s : State) (i k : Nat) (v : Bit) :
    readBit (writeBit i v s) k = if k = i then v else readBit s k := by
  by_cases h : k = i
  · subst h; simp [readBit]
  · simp [readBit, Memory.lookup_write_of_ne _ _ h, h]

/-- After a byte sequence was stored to `CAR[0 ..)`, its cells read as the sequence, the others as before. -/
theorem readCar_storeCar (s : State) (bytes : List Byte) (k : Nat) :
    readCar (storeCar bytes s) k = (bytes[k]?).getD (readCar s k) :=
  getD_of_lookup_writeList s.car bytes k _

theorem readTxt_storeTxt (s : State) (bytes : List Byte) (k : Nat) :
    readTxt (storeTxt bytes s) k = (bytes[k]?).getD (readTxt s k) :=
  getD_of_lookup_writeList s.txt bytes k _

theorem readBit_storeBit (s : State) (bits : List Bit) (k : Nat) :
    readBit (storeBit bits s) k = (bits[k]?).getD (readBit s k) :=
  getD_of_lookup_writeList s.bit bits k _

@[simp] theorem length_carCells (s : State) (n : Nat) : (carCells s n).length = n := by simp [carCells]

@[simp] theorem length_txtCells (s : State) (n : Nat) : (txtCells s n).length = n := by simp [txtCells]

@[simp] theorem length_bitCells (s : State) (n : Nat) : (bitCells s n).length = n := by simp [bitCells]

theorem getElem?_carCells (s : State) (n i : Nat) :
    (carCells s n)[i]? = if i < n then some (readCar s i) else none := by
  by_cases h : i < n
  · simp [carCells, h]
  · simp [carCells, h]

theorem getElem?_txtCells (s : State) (n i : Nat) :
    (txtCells s n)[i]? = if i < n then some (readTxt s i) else none := by
  by_cases h : i < n
  · simp [txtCells, h]
  · simp [txtCells, h]

theorem getElem?_bitCells (s : State) (n i : Nat) :
    (bitCells s n)[i]? = if i < n then some (readBit s i) else none := by
  by_cases h : i < n
  · simp [bitCells, h]
  · simp [bitCells, h]

/-- Engine accesses to existing cells go on. -/
theorem withCells_of_le {space : CellSpace} {n : Nat} {s : State}
    (next : Host.Outcome State Fault Refusal) (h : n ≤ cellCount s.params space) :
    withCells space n s next = next := if_pos h

/-- What `withCells` can do: go on with existing cells, or fault. -/
theorem withCells_eq_next {space : CellSpace} {n : Nat} {s t : State}
    {next : Host.Outcome State Fault Refusal} (h : withCells space n s next = .next t) :
    n ≤ cellCount s.params space ∧ next = .next t := by
  unfold withCells at h
  split at h
  · exact ⟨‹_›, h⟩
  · cases h

end Sys2Proof.Machine
end

