-- ==== Sys2Proof/Laws/Bus.lean ====
section
/-! SUPPORT. The address map and the writes of the host bus (20_memory.md R62 to R65). -/

namespace Sys2Proof.Machine

open Sys2Proof

theorem carBase_eq : carBase = 0x01000000 := rfl
theorem txtBase_eq : txtBase = 0x02000000 := rfl
theorem bitBase_eq : bitBase = 0x03000000 := rfl

/-- Where each register lies (10_state.md R20). -/
def regOffset : Reg → Nat
  | .cmd => 0x00
  | .status => 0x08
  | .val => 0x10
  | .clen => 0x18
  | .tlen => 0x20
  | .blen => 0x28
  | .gcnt => 0x30
  | .cfg => 0x38

theorem regAt_regOffset (r : Reg) : regAt (regOffset r / 8) = some r := by cases r <;> rfl

theorem regOffset_of_regAt {n : Nat} {r : Reg} (h : regAt n = some r) : 8 * n = regOffset r := by
  unfold regAt at h
  split at h <;> cases h <;> rfl

/-- A register's address names the register. -/
theorem locate_register (p : Params) (r : Reg) {addr : Word} (h : addr.toNat = regOffset r) :
    locate p addr = some (.reg r) := by
  have hlt : regOffset r < 0x40 ∧ regOffset r % 8 = 0 := by cases r <;> decide
  unfold locate
  simp only [h, hlt, if_true, regAt_regOffset, Option.map_some]

/-- A cell's address names the cell, when the windows do not overlap. -/
theorem locate_carCell {p : Params} (hv : p.valid) {addr : Word} {i : Nat} (hi : i < p.carMax)
    (h : addr.toNat = 0x01000000 + i) : locate p addr = some (.car i) := by
  obtain ⟨-, -, v3, -, -⟩ := hv
  have hw : windowSize = 0x01000000 := rfl
  have hb := carBase_eq
  unfold locate
  simp only [h]
  rw [if_neg (by omega), if_pos (by omega)]
  rw [show 0x01000000 + i - carBase = i by omega]

theorem locate_txtCell {p : Params} (hv : p.valid) {addr : Word} {i : Nat} (hi : i < p.txtMax)
    (h : addr.toNat = 0x02000000 + i) : locate p addr = some (.txt i) := by
  obtain ⟨-, -, v3, v4, -⟩ := hv
  have hw : windowSize = 0x01000000 := rfl
  have hb := carBase_eq
  have hb' := txtBase_eq
  unfold locate
  simp only [h]
  rw [if_neg (by omega), if_neg (by omega), if_pos (by omega)]
  rw [show 0x02000000 + i - txtBase = i by omega]

theorem locate_bitCell {p : Params} (hv : p.valid) {addr : Word} {i : Nat} (hi : i < p.bitsMax)
    (h : addr.toNat = 0x03000000 + i) : locate p addr = some (.bit i) := by
  obtain ⟨-, -, v3, v4, v5⟩ := hv
  have hw : windowSize = 0x01000000 := rfl
  have hb := carBase_eq
  have hb' := txtBase_eq
  have hb'' := bitBase_eq
  unfold locate
  simp only [h]
  rw [if_neg (by omega), if_neg (by omega), if_neg (by omega), if_pos (by omega)]
  rw [show 0x03000000 + i - bitBase = i by omega]

/-- What an address names, and where that lies. -/
def targetAt (p : Params) (a : Nat) : Target → Prop
  | .reg r => a = regOffset r
  | .car i => a = 0x01000000 + i ∧ i < p.carMax
  | .txt i => a = 0x02000000 + i ∧ i < p.txtMax
  | .bit i => a = 0x03000000 + i ∧ i < p.bitsMax

/-- All that `locate` can answer: the register or cell at the address, or nothing at an address that
is unmapped or a misaligned `REG` address (20_memory.md R64 (a), (b)). -/
theorem locate_cases (p : Params) (addr : Word) :
    (∃ t, locate p addr = some t ∧ targetAt p addr.toNat t) ∨
      (locate p addr = none ∧
        ((addr.toNat < 0x40 ∧ addr.toNat % 8 ≠ 0) ∨
          (0x40 ≤ addr.toNat ∧ ¬ (0x01000000 ≤ addr.toNat ∧ addr.toNat < 0x01000000 + p.carMax) ∧
            ¬ (0x02000000 ≤ addr.toNat ∧ addr.toNat < 0x02000000 + p.txtMax) ∧
            ¬ (0x03000000 ≤ addr.toNat ∧ addr.toNat < 0x03000000 + p.bitsMax)))) := by
  have hc := carBase_eq
  have ht := txtBase_eq
  have hb := bitBase_eq
  unfold locate
  generalize addr.toNat = a
  simp only
  by_cases h : a < 0x40
  · rw [if_pos h]
    by_cases h8 : a % 8 = 0
    · rw [if_pos h8]
      have hr : ∃ r, regAt (a / 8) = some r := by
        have : a / 8 < 8 := by omega
        generalize a / 8 = n at this
        interval_cases n <;> exact ⟨_, rfl⟩
      obtain ⟨r, hr⟩ := hr
      have := regOffset_of_regAt hr
      exact .inl ⟨.reg r, by rw [hr]; rfl, by simp only [targetAt]; omega⟩
    · rw [if_neg h8]
      exact .inr ⟨rfl, .inl ⟨h, h8⟩⟩
  · rw [if_neg h]
    by_cases h1 : carBase ≤ a ∧ a < carBase + p.carMax
    · rw [if_pos h1]
      exact .inl ⟨_, rfl, by simp only [targetAt]; omega⟩
    · rw [if_neg h1]
      by_cases h2 : txtBase ≤ a ∧ a < txtBase + p.txtMax
      · rw [if_pos h2]
        exact .inl ⟨_, rfl, by simp only [targetAt]; omega⟩
      · rw [if_neg h2]
        by_cases h3 : bitBase ≤ a ∧ a < bitBase + p.bitsMax
        · rw [if_pos h3]
          exact .inl ⟨_, rfl, by simp only [targetAt]; omega⟩
        · rw [if_neg h3]
          exact .inr ⟨rfl, .inr ⟨by omega, by omega, by omega, by omega⟩⟩

/-- A located register or cell lies at the address. -/
theorem targetAt_of_locate {p : Params} {addr : Word} {t : Target} (h : locate p addr = some t) :
    targetAt p addr.toNat t := by
  rcases locate_cases p addr with ⟨t', h1, h2⟩ | ⟨h1, -⟩
  · rw [h] at h1
    cases h1
    exact h2
  · rw [h] at h1
    cases h1

/-- A length in range is stored, one above the maximum is refused. -/
theorem writeLength_of_le {max : Nat} {data : Wide} (store : Word → State → State) (s : State)
    (h : data.toNat % 2 ^ 32 ≤ max) : writeLength max data store s = some (store (data.setWidth 32) s) :=
  if_neg (by rw [BitVec.toNat_setWidth]; omega)

theorem writeLength_of_lt {max : Nat} {data : Wide} (store : Word → State → State) (s : State)
    (h : max < data.toNat % 2 ^ 32) : writeLength max data store s = none :=
  if_pos (by rw [BitVec.toNat_setWidth]; omega)

/-- What a host write changes at most: `CMD`, `VAL`, a length register or one cell. -/
theorem writeTarget_keeps {tgt : Target} {d : Wide} {s t : State} (h : writeTarget tgt d s = some t) :
    t.params = s.params ∧ t.pending = s.pending ∧ t.responses = s.responses ∧ t.scan = s.scan ∧
      t.status = s.status ∧ t.gcnt = s.gcnt ∧ t.epoch = s.epoch := by
  cases tgt with
  | reg r =>
    cases r <;> simp only [writeTarget, writeLength] at h <;> (try split at h) <;>
      simp only [Option.some.injEq, reduceCtorEq] at h <;> subst h <;> simp
  | car i => cases h; simp
  | txt i => cases h; simp
  | bit i => cases h; simp

end Sys2Proof.Machine
end

