-- ==== Sys2Proof/Laws/Extract.lean ====
section
/-! SUPPORT. What the extract state machine can reach (41_carrier_codec.md R165 to R176), said once. -/

namespace Sys2Proof.Machine

open Sys2Proof

/-- Every range the automaton can owe starts at 0x80 or above. -/
theorem utf8Step_lo {u u' : Utf8State} {b : Byte} (h : utf8Step u b = some u') : 0x80#8 ≤ u'.lo := by
  unfold utf8Step at h
  split at h
  · repeat' split at h
    all_goals first | (cases h; done) | (injection h with h; subst h; decide)
  · split at h
    · injection h with h; subst h; exact (by decide : (0x80#8 : Byte) ≤ 0x80#8)
    · cases h

theorem utf8Run_lo {u u' : Utf8State} {bytes : List Byte} (hu : 0x80#8 ≤ u.lo)
    (h : utf8Run u bytes = some u') : 0x80#8 ≤ u'.lo := by
  induction bytes generalizing u with
  | nil => cases h; exact hu
  | cons b bytes ih =>
    unfold utf8Run at h
    split at h
    · cases h
    · exact ih (utf8Step_lo ‹_›) h

/-- The sentinel is accepted only at a character boundary (R169). -/
theorem need_eq_zero_of_sentinel {u u' : Utf8State} (hu : 0x80#8 ≤ u.lo)
    (h : utf8Step u sentinel = some u') : u.need = 0 := by
  by_contra hn
  unfold utf8Step at h
  rw [if_neg hn] at h
  split at h
  · rename_i hc
    have h1 := hc.1
    have : ¬ (0x80#8 ≤ sentinel) := by decide
    exact this (BitVec.le_trans hu h1)
  · cases h

/-- At a character boundary the sentinel is accepted. -/
theorem utf8Step_sentinel {u : Utf8State} (h : u.need = 0) :
    utf8Step u sentinel = some { need := 0, lo := 0x80#8, hi := 0xBF#8 } := by
  unfold utf8Step
  rw [if_pos h, if_pos (by decide)]

/-- What a scan of `s` can be: the accumulated bytes are the folded groups so far, none of them the
sentinel and none rejected, and the phase says how the next group went. -/
inductive ScanReached (s : State) : Scan → Prop where
  | scanning (u : Utf8State) (acc : List Byte) (hacc : acc = (List.range acc.length).map (groupByte s))
      (hrun : utf8Run utf8Start acc = some u) (hno : sentinel ∉ acc)
      (hlen : 8 * acc.length ≤ carrierLength s) :
      ScanReached s { phase := .scanning, g := acc.length, acc := acc, u := u }
  | ended (u : Utf8State) (acc : List Byte) (hacc : acc = (List.range acc.length).map (groupByte s))
      (hrun : utf8Run utf8Start acc = some u) (hno : sentinel ∉ acc)
      (hlen : 8 * acc.length ≤ carrierLength s) (hend : carrierLength s < 8 * acc.length + 8) :
      ScanReached s { phase := .failed, g := acc.length, acc := acc, u := u }
  | rejected (u : Utf8State) (acc : List Byte) (hacc : acc = (List.range acc.length).map (groupByte s))
      (hrun : utf8Run utf8Start acc = some u) (hno : sentinel ∉ acc)
      (hlen : 8 * (acc.length + 1) ≤ carrierLength s)
      (hrej : utf8Step u (groupByte s acc.length) = none) :
      ScanReached s { phase := .failed, g := acc.length + 1, acc := acc, u := u }
  | terminated (u : Utf8State) (acc : List Byte) (hacc : acc = (List.range acc.length).map (groupByte s))
      (hrun : utf8Run utf8Start acc = some u) (hno : sentinel ∉ acc)
      (hlen : 8 * (acc.length + 1) ≤ carrierLength s) (hneed : u.need = 0)
      (hsent : groupByte s acc.length = sentinel) :
      ScanReached s { phase := .terminated, g := acc.length + 1, acc := acc, u := u }

theorem scanReached_start (s : State) : ScanReached s scanStart :=
  .scanning utf8Start [] rfl rfl (by simp) (by simp)

theorem scanReached_transition {s : State} {x : Scan} (h : ScanReached s x) :
    ScanReached s (scanTransition s x) := by
  cases h with
  | scanning u acc hacc hrun hno hlen =>
    simp only [scanTransition]
    by_cases hend : carrierLength s < 8 * acc.length + 8
    · rw [if_pos hend]
      exact .ended u acc hacc hrun hno hlen hend
    · rw [if_neg hend]
      cases hs : utf8Step u (groupByte s acc.length) with
      | none => exact .rejected u acc hacc hrun hno (by omega) hs
      | some u' =>
        by_cases hb : groupByte s acc.length = sentinel
        · simp only [hb, if_true]
          refine .terminated u acc hacc hrun hno (by omega) ?_ hb
          rw [hb] at hs
          exact need_eq_zero_of_sentinel (utf8Run_lo (by decide) hrun) hs
        · simp only [hb, if_false, scanAppends]
          have h2 := ScanReached.scanning (s := s) u' (acc ++ [groupByte s acc.length])
            (by rw [List.length_append, List.length_singleton, List.range_succ, List.map_append,
                  ← hacc]; rfl)
            (by rw [utf8Run_append, hrun]; simp [utf8Run, hs])
            (by
              intro hm
              rcases List.mem_append.1 hm with h' | h'
              · exact hno h'
              · exact hb (List.mem_singleton.1 h').symm)
            (by simp; omega)
          simpa using h2
  | ended u acc hacc hrun hno hlen hend => exact .ended u acc hacc hrun hno hlen hend
  | rejected u acc hacc hrun hno hlen hrej => exact .rejected u acc hacc hrun hno hlen hrej
  | terminated u acc hacc hrun hno hlen hneed hsent =>
    exact .terminated u acc hacc hrun hno hlen hneed hsent

/-- The scan of `s` after `n` transitions, without the rest of the state. -/
def scanIter (s : State) : Nat → Scan → Scan
  | 0, x => x
  | n + 1, x => scanIter s n (scanTransition s x)

/-- A transition depends on `CLEN`, `CAR` and the epoch alone. -/
theorem scanTransition_setScan (s : State) (x : Option Scan) (y : Scan) :
    scanTransition (setScan x s) y = scanTransition s y := rfl

theorem scanIter_setScan (s : State) (x : Option Scan) (n : Nat) (y : Scan) :
    scanIter (setScan x s) n y = scanIter s n y := by
  induction n generalizing y with
  | zero => rfl
  | succ n ih => exact ih _

theorem setScan_setScan (s : State) (x y : Option Scan) : setScan y (setScan x s) = setScan y s := rfl

/-- Transitions change nothing but the scan. -/
theorem runScan_setScan (s : State) (n : Nat) (x : Scan) :
    runScan n (setScan (some x) s) = setScan (some (scanIter s n x)) s := by
  induction n generalizing x with
  | zero => rfl
  | succ n ih =>
    rw [runScan]
    have : advanceScan (setScan (some x) s) = setScan (some (scanTransition s x)) s := rfl
    rw [this, ih, scanIter]

theorem runScan_beginScan (s : State) (n : Nat) :
    runScan n (beginScan s) = setScan (some (scanIter s n scanStart)) s := runScan_setScan s n scanStart

theorem scanIter_reached {s : State} {x : Scan} (h : ScanReached s x) (n : Nat) :
    ScanReached s (scanIter s n x) := by
  induction n generalizing x with
  | zero => exact h
  | succ n ih => exact ih (scanReached_transition h)

theorem scanTransition_of_terminal {s : State} {x : Scan} (h : x.phase ≠ .scanning) :
    scanTransition s x = x := by
  unfold scanTransition
  cases hp : x.phase <;> simp_all

theorem scanIter_of_terminal {s : State} {x : Scan} (h : x.phase ≠ .scanning) (n : Nat) :
    scanIter s n x = x := by
  induction n with
  | zero => rfl
  | succ n ih => rw [scanIter, scanTransition_of_terminal h, ih]

/-- A transition that stays SCANNING consumes one group. -/
theorem g_of_still_scanning {s : State} {x : Scan} (h : (scanTransition s x).phase = .scanning) :
    (scanTransition s x).g = x.g + 1 := by
  have hx : x.phase = .scanning := by
    by_contra hc
    rw [scanTransition_of_terminal hc] at h
    exact hc h
  unfold scanTransition at h ⊢
  simp only [hx] at h ⊢
  split at h
  · simp [scanEnds] at h
  · rename_i hlt
    rw [if_neg hlt]
    split at h
    · simp [scanRejects] at h
    · rename_i u hu
      split at h
      · simp [scanTerminates] at h
      · rename_i hb
        simp [hb, scanAppends]

theorem g_of_scanning_iter {s : State} {x : Scan} (n : Nat) (h : (scanIter s n x).phase = .scanning) :
    (scanIter s n x).g = x.g + n := by
  induction n generalizing x with
  | zero => rfl
  | succ n ih =>
    rw [scanIter] at h ⊢
    rw [ih h]
    have : (scanTransition s x).phase = .scanning := by
      by_contra hc
      rw [scanIter_of_terminal hc] at h
      exact hc h
    rw [g_of_still_scanning this]
    omega

/-- The fuel of R174 suffices. -/
theorem scanIter_terminates (s : State) :
    (scanIter s (carrierLength s / 8 + 1) scanStart).phase ≠ .scanning := by
  intro h
  have hg := g_of_scanning_iter _ h
  have hr := scanIter_reached (scanReached_start s) (carrierLength s / 8 + 1)
  generalize hx : scanIter s (carrierLength s / 8 + 1) scanStart = x at h hg hr
  cases hr with
  | scanning u acc hacc hrun hno hlen =>
    simp only [scanStart] at hg
    omega
  | ended => simp at h
  | rejected => simp at h
  | terminated => simp at h

/-- What `EXTRACT` commits: a terminal scan that the machine can reach. -/
theorem execExtract_eq (s : State) :
    ∃ x, ScanReached s x ∧ x.phase ≠ .scanning ∧
      x = scanIter s (carrierLength s / 8 + 1) scanStart ∧
      execExtract s = commitScan (setScan (some x) s) :=
  ⟨_, scanIter_reached (scanReached_start s) _, scanIter_terminates s, rfl, by
    rw [execExtract, runScan_beginScan]⟩

end Sys2Proof.Machine
end

