-- ==== Sys2Proof/Laws/Commands.lean ====
section
/-! SUPPORT. One inversion lemma per command: all it can do when it answers a next state. -/

namespace Sys2Proof.Machine

open Sys2Proof

theorem execGetbit_next {w : Width} {pos : Nat} {s t : State} (h : execGetbit w pos s = .next t) :
    (pos < w.bits ∧ t = complete .idle (getBitFn (valueOperand w s) pos) s) ∨
      (w.bits ≤ pos ∧ t = raise .outOfRangeBitPosition none s) := by
  unfold execGetbit at h
  split at h
  · cases h; exact .inl ⟨‹_›, rfl⟩
  · cases h; exact .inr ⟨Nat.le_of_not_lt ‹_›, rfl⟩

theorem execSetbit_next {w : Width} {pos : Nat} {bit : Bit} {s t : State}
    (h : execSetbit w pos bit s = .next t) :
    (pos < w.bits ∧ t = complete .idle false (setVal (setBitFn s.val pos bit) s)) ∨
      (w.bits ≤ pos ∧ t = raise .outOfRangeBitPosition none s) := by
  unfold execSetbit at h
  split at h
  · cases h; exact .inl ⟨‹_›, rfl⟩
  · cases h; exact .inr ⟨Nat.le_of_not_lt ‹_›, rfl⟩

theorem execT2b_next {s t : State} (h : execT2b s = .next t) :
    textLength s ≤ s.params.txtMax ∧ 8 * textLength s ≤ s.params.bitsMax ∧
      t = complete .idle false
        (setBlen (BitVec.ofNat 32 (8 * textLength s)) (storeBit (textToBitsFn (textOperand s)) s)) := by
  obtain ⟨h1, h⟩ := withCells_eq_next h
  obtain ⟨h2, h⟩ := withCells_eq_next h
  cases h
  exact ⟨h1, h2, rfl⟩

theorem execB2t_next {s t : State} (h : execB2t s = .next t) :
    t = raise .decodeError none s ∨
      ∃ text, bitLength s ≤ s.params.bitsMax ∧ bitsToTextFn (bitsOperand s) = some text ∧
        text.length ≤ s.params.txtMax ∧
        t = complete .idle false (setTlen (BitVec.ofNat 32 text.length) (storeTxt text s)) := by
  unfold execB2t at h
  split at h
  · cases h; exact .inl rfl
  · obtain ⟨h1, h⟩ := withCells_eq_next h
    split at h
    · cases h; exact .inl rfl
    · rename_i text htext
      obtain ⟨h2, h⟩ := withCells_eq_next h
      cases h
      exact .inr ⟨text, h1, htext, h2, rfl⟩

theorem execInject_next {s t : State} (h : execInject s = .next t) :
    (carrierLength s < needFor (textLength s) ∧ t = raise .capacityError none s) ∨
      (needFor (textLength s) ≤ carrierLength s ∧ textLength s ≤ s.params.txtMax ∧
        needFor (textLength s) ≤ s.params.carMax ∧
        t = complete .idle false
          (storeCar (embed (carCells s (needFor (textLength s))) (textToBitsFn (frame (textOperand s)))) s)) := by
  unfold execInject at h
  split at h
  · cases h; exact .inl ⟨‹_›, rfl⟩
  · obtain ⟨h1, h⟩ := withCells_eq_next h
    obtain ⟨h2, h⟩ := withCells_eq_next h
    cases h
    exact .inr ⟨Nat.le_of_not_lt ‹_›, h1, h2, rfl⟩

/-- The state a successful `EXTRACT` leaves (41_carrier_codec.md R171). -/
def extractSucceeded (g : Nat) (acc : List Byte) (s : State) : State :=
  complete .terminated false
    (setGcnt (BitVec.ofNat 32 g) (setTlen (BitVec.ofNat 32 acc.length) (storeTxt acc (setScan none s))))

theorem commitScan_next {s t : State} {x : Scan} (hx : x.phase ≠ .scanning)
    (h : commitScan (setScan (some x) s) = .next t) :
    8 * x.g ≤ s.params.carMax ∧
      ((x.phase = .failed ∧ t = raise .decodeError (some x.g) (setScan none s)) ∨
        (x.phase = .terminated ∧ x.acc.length ≤ s.params.txtMax ∧ t = extractSucceeded x.g x.acc s)) := by
  obtain ⟨phase, g, acc, u⟩ := x
  cases phase with
  | scanning => exact absurd rfl hx
  | failed =>
    obtain ⟨h1, h⟩ := withCells_eq_next h
    cases h
    exact ⟨h1, .inl ⟨rfl, rfl⟩⟩
  | terminated =>
    obtain ⟨h1, h⟩ := withCells_eq_next h
    obtain ⟨h2, h⟩ := withCells_eq_next h
    cases h
    exact ⟨h1, .inr ⟨rfl, h2, rfl⟩⟩

theorem execExtract_next {s t : State} (h : execExtract s = .next t) :
    ∃ x, ScanReached s x ∧ 8 * x.g ≤ s.params.carMax ∧
      ((x.phase = .failed ∧ t = raise .decodeError (some x.g) (setScan none s)) ∨
        (x.phase = .terminated ∧ x.acc.length ≤ s.params.txtMax ∧ t = extractSucceeded x.g x.acc s)) := by
  obtain ⟨x, hr, hp, -, he⟩ := execExtract_eq s
  rw [he] at h
  exact ⟨x, hr, commitScan_next hp h⟩

/-- The scans that end: failed with the groups consumed, or terminated with the text. -/
theorem commitScan_failed {s : State} {x : Scan} (hx : x.phase = .failed)
    (h : 8 * x.g ≤ s.params.carMax) :
    commitScan (setScan (some x) s) = .next (raise .decodeError (some x.g) (setScan none s)) := by
  obtain ⟨phase, g, acc, u⟩ := x
  cases hx
  exact withCells_of_le _ h

theorem commitScan_terminated {s : State} {x : Scan} (hx : x.phase = .terminated)
    (h : 8 * x.g ≤ s.params.carMax) (ht : x.acc.length ≤ s.params.txtMax) :
    commitScan (setScan (some x) s) = .next (extractSucceeded x.g x.acc s) := by
  obtain ⟨phase, g, acc, u⟩ := x
  cases hx
  exact (withCells_of_le _ h).trans (withCells_of_le _ ht)

end Sys2Proof.Machine
end

