-- ==== Sys2Proof/Laws/CarrierCodec.lean ====
section
/-! SUPPORT. What INJECT writes and EXTRACT reads of a carrier byte, cell by cell (41_carrier_codec.md R160 to R176). -/

namespace Sys2Proof.Machine

open Sys2Proof

/-- "`(c[i] & 0xFE) | bits[i]`" (R161). -/
theorem setBitFn_zero (x : Byte) (b : Bit) :
    setBitFn x 0 b = (x &&& 0xFE#8) ||| (if b then 1#8 else 0#8) := by
  revert x b
  decide

/-- The LSB reads as the bit written. -/
@[simp] theorem lsb_setBitFn (x : Byte) (b : Bit) : lsb (setBitFn x 0 b) = b := by
  revert x b
  decide

/-- Positions 7:1 stay (R164). -/
theorem setBitFn_zero_shift (x : Byte) (b : Bit) : setBitFn x 0 b >>> 1 = x >>> 1 := by
  revert x b
  decide

theorem getElem?_embed (carrier : List Byte) (bits : List Bit) (i : Nat) :
    (embed carrier bits)[i]? =
      Option.bind carrier[i]? (fun x => Option.map (fun b => setBitFn x 0 b) bits[i]?) := by
  rw [embed, List.getElem?_zipWith]
  cases carrier[i]? <;> cases bits[i]? <;> rfl

@[simp] theorem length_frame (m : List Byte) : (frame m).length = m.length + 1 := by simp [frame]

/-- Byte `j` of the framed message: the text, then the sentinel (R160). -/
theorem getElem?_frame_textOperand (s : State) (j : Nat) :
    (frame (textOperand s))[j]? =
      if j < textLength s then some (readTxt s j)
      else if j = textLength s then some sentinel else none := by
  have hl : (textOperand s).length = textLength s := length_txtCells s _
  rw [frame]
  by_cases h : j < textLength s
  · rw [List.getElem?_append_left (hl ▸ h), textOperand, getElem?_txtCells, if_pos h, if_pos h]
  · rw [List.getElem?_append_right (by omega), if_neg h, hl]
    by_cases h2 : j = textLength s
    · simp [h2]
    · rw [if_neg h2, List.getElem?_eq_none (by simp only [List.length_singleton]; omega)]

/-- The cells after a successful `INJECT` (R162). -/
theorem readCar_injected (s : State) (i : Nat) :
    readCar (storeCar (embed (carCells s (needFor (textLength s)))
      (textToBitsFn (frame (textOperand s)))) s) i =
      ((textToBitsFn (frame (textOperand s)))[i]?).elim (readCar s i)
        (fun b => setBitFn (readCar s i) 0 b) := by
  rw [readCar_storeCar, getElem?_embed, getElem?_carCells]
  by_cases h : i < needFor (textLength s)
  · rw [if_pos h]
    cases (textToBitsFn (frame (textOperand s)))[i]? <;> rfl
  · have hl : (textToBitsFn (frame (textOperand s))).length = needFor (textLength s) := by
      simp [textOperand, needFor]
    rw [if_neg h, List.getElem?_eq_none (by omega)]
    rfl

/-- The text after a successful `EXTRACT` (R171). -/
theorem readTxt_extractSucceeded (s : State) (g : Nat) (acc : List Byte) (j : Nat) :
    readTxt (extractSucceeded g acc s) j = (acc[j]?).getD (readTxt s j) :=
  readTxt_storeTxt (setScan none s) acc j

/-- A reached scan consumed only whole groups, and one group more than the text when it terminated. -/
theorem ScanReached.bounds {s : State} {x : Scan} (h : ScanReached s x) :
    8 * x.g ≤ carrierLength s ∧ (x.phase = .terminated → x.g = x.acc.length + 1) := by
  cases h with
  | scanning u acc hacc hrun hno hlen => exact ⟨hlen, fun h => by cases h⟩
  | ended u acc hacc hrun hno hlen hend => exact ⟨hlen, fun h => by cases h⟩
  | rejected u acc hacc hrun hno hlen hrej => exact ⟨hlen, fun h => by cases h⟩
  | terminated u acc hacc hrun hno hlen hneed hsent => exact ⟨hlen, fun _ => rfl⟩

theorem scanIter_add (s : State) (m n : Nat) (x : Scan) :
    scanIter s (m + n) x = scanIter s n (scanIter s m x) := by
  induction m generalizing x with
  | zero => rw [Nat.zero_add, scanIter]
  | succ m ih => rw [Nat.succ_add, scanIter, scanIter, ih]

/-- A deserialized text has a byte for each whole group of `BIT[0..BLEN)` (40_bit_codec.md R129). -/
theorem length_of_bitsToTextFn {bits : List Bit} {text : List Byte}
    (h : bitsToTextFn bits = some text) : text.length = bits.length / 8 := by
  unfold bitsToTextFn at h
  split at h
  · cases h
  split at h
  · cases h
    simp [groupBytes]
  · cases h

end Sys2Proof.Machine
end

