-- ==== Sys2Proof/Laws/Decode.lean ====
section
/-! SUPPORT. The fields of an encoded word, the rows it hits, and what a decoded word must be (30_encoding.md R91 to R96). -/

namespace Sys2Proof

theorem widthOfSel_sel (w : Width) : widthOfSel w.sel = w := by cases w <;> rfl

theorem sel_widthOfSel (x : BitVec 2) : (widthOfSel x).sel = x := by revert x; decide

/-- W is a power of two from 8 to 64 (R92). -/
theorem bits_pos_and_le (w : Width) : 0 < w.bits ∧ w.bits ≤ 64 := by cases w <;> decide

@[simp] theorem opField_formatB (op : BitVec 4) (w : Width) (bit : Bit) (pos : Nat) :
    opField (formatB op w bit pos) = op := by
  simp only [opField, formatB]
  generalize BitVec.ofNat 8 pos = q
  apply BitVec.eq_of_getLsbD_eq
  intro i hi
  interval_cases i <;> simp

@[simp] theorem wselField_formatB (op : BitVec 4) (w : Width) (bit : Bit) (pos : Nat) :
    wselField (formatB op w bit pos) = w.sel := by
  simp only [wselField, formatB]
  generalize BitVec.ofNat 8 pos = q
  apply BitVec.eq_of_getLsbD_eq
  intro i hi
  interval_cases i <;> simp

@[simp] theorem bitField_formatB (op : BitVec 4) (w : Width) (bit : Bit) (pos : Nat) :
    bitField (formatB op w bit pos) = bit := by
  simp [bitField, formatB]

@[simp] theorem posField_formatB (op : BitVec 4) (w : Width) (bit : Bit) (pos : Nat) :
    posField (formatB op w bit pos) = BitVec.ofNat 8 pos := by
  simp only [posField, formatB]
  generalize BitVec.ofNat 8 pos = q
  apply BitVec.eq_of_getLsbD_eq
  intro i hi
  interval_cases i <;> simp

theorem or_and_mask (a b m : Word) : (a ||| b) &&& m = (a &&& m) ||| (b &&& m) := by
  ext
  simp [Bool.and_or_distrib_right]

/-- A mask that is 0 in bits 15:8 drops the position. -/
theorem pos_and_mask {m : Word} (hm : m &&& 0x0000FF00#32 = 0#32) (q : BitVec 8) :
    q.setWidth 32 <<< 8 &&& m = 0#32 := by
  apply BitVec.eq_of_getLsbD_eq
  intro i hi
  rw [BitVec.getLsbD_and]
  by_cases h : 8 ≤ i ∧ i < 16
  · have := congrArg (fun x => x.getLsbD i) hm
    obtain ⟨h1, h2⟩ := h
    have hF : (0x0000FF00#32).getLsbD i = true := by interval_cases i <;> rfl
    rw [BitVec.getLsbD_and, hF, Bool.and_true] at this
    rw [this, BitVec.getLsbD_zero, Bool.and_false]
  · rw [BitVec.getLsbD_shiftLeft, BitVec.getLsbD_setWidth]
    by_cases h8 : i < 8
    · simp [h8]
    · simp [BitVec.getLsbD_of_ge q (i - 8) (by omega)]

/-- `GETBIT`'s words hit its row (R93). -/
theorem formatB_and_getbit_mask (w : Width) (pos : Nat) :
    formatB 0x1#4 w false pos &&& 0xFFFF00CF#32 = 0x00000001#32 := by
  unfold formatB
  rw [or_and_mask, pos_and_mask (by decide)]
  cases w <;> decide

/-- `SETBIT`'s words hit its row (R93). -/
theorem formatB_and_setbit_mask (w : Width) (bit : Bit) (pos : Nat) :
    formatB 0x2#4 w bit pos &&& 0xFFFF008F#32 = 0x00000002#32 := by
  unfold formatB
  rw [or_and_mask, pos_and_mask (by decide)]
  cases w <;> cases bit <;> decide

/-- What a decoded word is: a word that hits a row, and the command of that row is well-formed. -/
theorem exists_row_of_decode {p : Params} {word : Word} {i : Instr} (h : decode p word = .ok i) :
    ∃ row ∈ opcodeTable, row.hits word = true ∧ i = row.op.build word ∧ i.wellFormed p = true := by
  unfold decode at h
  split at h
  · rename_i row hrow
    split at h
    · rename_i hw
      cases h
      exact ⟨row, List.mem_of_find?_eq_some hrow, by simpa using List.find?_some hrow, rfl, hw⟩
    · cases h
  · cases h

end Sys2Proof
end

