-- ==== Sys2Proof/Laws/PerInstr.lean ====
section
/-! SUPPORT. Statements about every command as syntax, one lemma per constructor. -/

namespace Sys2Proof.Laws

/-- The row of the opcode map a command belongs to (30_encoding.md R93). -/
def rowOf : Instr → Opcode
  | .getbit _ _ => .getbit
  | .setbit _ _ _ => .setbit
  | .t2b => .t2b
  | .b2t => .b2t
  | .inject => .inject
  | .extract => .extract

/-- The word of a command matches its own row, whatever its operands (R95, R96). -/
def EncodeHitsRow.Statement (i : Instr) : Prop :=
  ∃ row ∈ opcodeTable, row.op = rowOf i ∧ row.hits (encode i) = true

theorem EncodeHitsRow.getbit (w : Width) (pos : Nat) : EncodeHitsRow.Statement (.getbit w pos) :=
  ⟨{ op := .getbit, mask := 0xFFFF00CF#32, pattern := 0x00000001#32 }, by simp [opcodeTable], rfl, by
    simp [OpcodeRow.hits, encode, formatB_and_getbit_mask]⟩

theorem EncodeHitsRow.setbit (w : Width) (pos : Nat) (bit : Bit) :
    EncodeHitsRow.Statement (.setbit w pos bit) :=
  ⟨{ op := .setbit, mask := 0xFFFF008F#32, pattern := 0x00000002#32 }, by simp [opcodeTable], rfl, by
    simp [OpcodeRow.hits, encode, formatB_and_setbit_mask]⟩

theorem EncodeHitsRow.t2b : EncodeHitsRow.Statement .t2b :=
  ⟨{ op := .t2b, mask := 0xFFFFFFFF#32, pattern := 0x00000003#32 }, by simp [opcodeTable], rfl, rfl⟩

theorem EncodeHitsRow.b2t : EncodeHitsRow.Statement .b2t :=
  ⟨{ op := .b2t, mask := 0xFFFFFFFF#32, pattern := 0x00000004#32 }, by simp [opcodeTable], rfl, rfl⟩

theorem EncodeHitsRow.inject : EncodeHitsRow.Statement .inject :=
  ⟨{ op := .inject, mask := 0xFFFFFFFF#32, pattern := 0x00000005#32 }, by simp [opcodeTable], rfl, rfl⟩

theorem EncodeHitsRow.extract : EncodeHitsRow.Statement .extract :=
  ⟨{ op := .extract, mask := 0xFFFFFFFF#32, pattern := 0x00000006#32 }, by simp [opcodeTable], rfl, rfl⟩

end Sys2Proof.Laws
end

