-- ==== Sys2Proof/Laws/Step.lean ====
section
/-! SUPPORT. What a step can do: one lemma per kind of host event. -/

namespace Sys2Proof.Machine

open Sys2Proof

theorem step_idle {s : State} (hs : s.scan = none) (hp : s.pending = []) : step s = .next s := by
  simp [step, serveNext, hs, hp]

theorem step_read {s : State} {addr : Word} {rest : List HostEvent} (hs : s.scan = none)
    (hp : s.pending = .read addr :: rest) : step s = .next (serveRead addr (setPending rest s)) := by
  simp [step, serveNext, serve, hs, hp]

theorem step_write {s : State} {addr : Word} {data : Wide} {rest : List HostEvent}
    (hs : s.scan = none) (hp : s.pending = .write addr data :: rest) :
    step s = serveWrite addr data (setPending rest s) := by
  simp [step, serveNext, serve, hs, hp]

theorem step_reset {s : State} {rest : List HostEvent} (hs : s.scan = none)
    (hp : s.pending = .reset :: rest) : step s = .next (applyReset (setPending rest s)) := by
  simp [step, serveNext, serve, hs, hp]

theorem step_scan {s : State} {x : Scan} (hs : s.scan = some x) : step s = continueScan x s := by
  simp [step, hs]

/-- A run goes on from the state its first step gives. -/
theorem run_of_step_next (M : Host.Core) {n : Nat} {s t : M.State} (h : M.step s = .next t) :
    M.run (n + 1) s = M.run n t := by
  rw [Host.Core.run, h]

theorem core_run_zero (s : State) : Host.Core.run Sys2Proof.core 0 s = .next s := rfl

theorem core_run_of_step_next {n : Nat} {s t : State} (h : step s = .next t) :
    Host.Core.run Sys2Proof.core (n + 1) s = Host.Core.run Sys2Proof.core n t :=
  run_of_step_next Sys2Proof.core h

/-- A completed command returns `OKAY` to the host. -/
theorem returnOkay_eq_next {o : Host.Outcome State Fault Refusal} {t : State}
    (h : returnOkay o = .next t) : ∃ t', o = .next t' ∧ t = respond okayWrite t' := by
  cases o with
  | next s => cases h; exact ⟨s, rfl, rfl⟩
  | fault f => cases h
  | refused r => cases h

/-- What a command word can do: its command's next state, or `IllegalCommand`. -/
theorem runCommand_eq_next {word : Word} {s t : State} (h : runCommand word s = .next t) :
    (∃ i t', decode s.params word = .ok i ∧ exec i s = .next t' ∧ t = respond okayWrite t') ∨
      (∃ e, decode s.params word = .error e ∧
        t = respond okayWrite (raise .illegalCommand none s)) := by
  unfold runCommand at h
  split at h
  · rename_i i hi
    obtain ⟨t', h1, h2⟩ := returnOkay_eq_next h
    exact .inl ⟨i, t', hi, h1, h2⟩
  · rename_i e he
    cases h
    exact .inr ⟨e, he, rfl⟩

/-- The `CMD` register is at address 0 and nowhere else. -/
theorem locate_cmd (p : Params) : locate p 0x00000000#32 = some (.reg .cmd) := rfl

/-- A write that is stored, of anything but `CMD`, returns `OKAY`. -/
theorem serveWrite_of_stored {addr : Word} {data : Wide} {s s' : State} {tgt : Target}
    (hl : locate s.params addr = some tgt) (hc : tgt ≠ .reg .cmd)
    (hw : writeTarget tgt data s = some s') : serveWrite addr data s = .next (respond okayWrite s') := by
  simp [serveWrite, hl, hw, hc]

/-- A `CMD` write runs the word it stored. -/
theorem serveWrite_cmd {addr : Word} {data : Wide} {s : State}
    (hl : locate s.params addr = some (.reg .cmd)) :
    serveWrite addr data s = runCommand (commandWord data) (setCmd (commandWord data) s) := by
  simp [serveWrite, hl, writeTarget]

/-- What a host write can do (20_memory.md R64, 10_state.md R22). -/
theorem serveWrite_eq_next {addr : Word} {data : Wide} {s t : State}
    (h : serveWrite addr data s = .next t) :
    t = respond errorResponse s ∨
      (∃ tgt s', locate s.params addr = some tgt ∧ tgt ≠ .reg .cmd ∧
        writeTarget tgt data s = some s' ∧ t = respond okayWrite s') ∨
      (locate s.params addr = some (.reg .cmd) ∧
        runCommand (commandWord data) (setCmd (commandWord data) s) = .next t) := by
  unfold serveWrite at h
  split at h
  · cases h; exact .inl rfl
  · rename_i tgt htgt
    split at h
    · cases h; exact .inl rfl
    · rename_i s' hs'
      split at h
      · rename_i hc
        subst hc
        cases hs'
        exact .inr (.inr ⟨htgt, h⟩)
      · rename_i hc
        cases h
        exact .inr (.inl ⟨tgt, s', htgt, hc, hs', rfl⟩)

end Sys2Proof.Machine
end

