-- ==== Sys2Proof/Tests/Slice0.lean ====
section
/-! SUPPORT. The model's own tests, with the values of 95_test_vectors.md, and for every statement with hypotheses a witness that meets them. -/

namespace Sys2Proof.Tests

open Sys2Proof Sys2Proof.Machine

/-- The next state of an outcome. -/
def nextOf (o : Host.Outcome State Fault Refusal) : Option State :=
  match o with
  | .next s => some s
  | .fault _ => none
  | .refused _ => none

/-- "LSB bytes b0 b1 ..." of 95_test_vectors.md: the carrier whose bits 0 spell the bytes, other bits 0. -/
def lsbBytes (bytes : List Byte) : List Byte :=
  (textToBitsFn bytes).map (fun b => if b then 1#8 else 0#8)

/-- An engine with a carrier, its other parts as after reset. -/
def withCarrier (bytes : List Byte) : State :=
  setClen (BitVec.ofNat 32 bytes.length) (storeCar bytes State.reset)

/-- An engine with a text and a carrier. -/
def withText (carrier text : List Byte) : State :=
  setTlen (BitVec.ofNat 32 text.length) (storeTxt text (withCarrier carrier))

/-- An engine with a bit sequence and the text 7A 7A (section 2.3). -/
def withBits (bits : List Bit) : State :=
  setBlen (BitVec.ofNat 32 bits.length) (storeBit bits (withText [] [0x7A#8, 0x7A#8]))

/-- An engine with a value in `VAL`. -/
def withVal (v : Wide) : State := setVal v State.reset

/-- A state in use: message "Hi", 24 carrier bytes FF, bits of "A", and the results of an earlier
`EXTRACT`. -/
def sample : State :=
  { withText (List.replicate 24 0xFF#8) [0x48#8, 0x69#8] with
    val := 7#64, status := 0x020#32, gcnt := 3#32, blen := 8#32, epoch := 1
    bit := Memory.writeList [] 0 (byteBits 0x41#8) }

/-- `sample` with one event to serve. -/
def served (e : HostEvent) : State := setPending [e] sample

/-! ### WellFormed -/

theorem test_position_that_does_not_fit_is_refused :
    (Instr.getbit .w8 256).wellFormed Params.standard = false ∧
      (Instr.setbit .w64 256 true).wellFormed Params.standard = false := by decide

theorem test_width_outside_widths_is_refused :
    (Instr.getbit .w16 0).wellFormed { Params.standard with wide16 := false } = false ∧
      (Instr.setbit .w32 0 true).wellFormed { Params.standard with wide32 := false } = false ∧
      (Instr.setbit .w64 0 true).wellFormed { Params.standard with wide64 := false } = false := by
  decide

/-! ### Decode: words of section 2.7, and encoded back -/

theorem test_getbit_words : decodeTableWord 32 0x00000911 = some (.getbit .w16 9) ∧
    decodeTableWord 32 0x00001F21 = some (.getbit .w32 31) ∧
    decodeTableWord 32 0x0000FF01 = some (.getbit .w8 255) ∧
    encode (.getbit .w64 63) = 0x00003F31#32 := by decide

theorem test_setbit_words : decodeTableWord 32 0x00000342 = some (.setbit .w8 3 true) ∧
    decodeTableWord 32 0x0000FF62 = some (.setbit .w32 255 true) ∧
    decodeTableWord 32 0x00000002 = some (.setbit .w8 0 false) ∧
    encode (.setbit .w64 63 true) = 0x00003F72#32 := by decide

theorem test_stream_words : decodeTableWord 32 0x00000003 = some .t2b ∧
    decodeTableWord 32 0x00000004 = some .b2t ∧ decodeTableWord 32 0x00000005 = some .inject ∧
    decodeTableWord 32 0x00000006 = some .extract := by decide

/-- V-ILL-1 to V-ILL-15. -/
theorem test_illegal_words :
    [0x00000000, 0x00000007, 0x0000000F, 0xFFFFFFFF, 0x00000041, 0x00000081, 0x00000381, 0x00010001,
      0x00000013, 0x00000103, 0x00000045, 0x00000106, 0x00000016, 0x80000006, 0x00000082].map
      (decodeTableWord 32) = List.replicate 15 none := by decide

/-- 30_encoding.md R92, R94: a width outside `WIDTHS` makes the word illegal. -/
theorem test_unsupported_width_is_illegal :
    (match decode { Params.standard with wide16 := false } 0x00000911#32 with
      | .ok _ => none
      | .error e => some e) = some .unsupportedWidth := by decide

/-! ### The commands, one step each -/

/-- V-GET-6: POS = W fails although `VAL[8]` = 1. -/
theorem test_getbit_at_width_fails :
    (nextOf (exec (.getbit .w8 8) (withVal 0x1FF#64))).map (fun t => (t.status, t.val)) =
      some (0x001#32, 0x1FF#64) := by decide

/-- V-GET-7. -/
theorem test_getbit_16_reads_position_8 :
    (nextOf (exec (.getbit .w16 8) (withVal 0x100#64))).map (·.status) = some 0x100#32 := by decide

/-- V-SET-6: `VAL[63:8]` preserved. -/
theorem test_setbit_clears_one_position :
    (nextOf (exec (.setbit .w8 3 false) (withVal 0xABCDEF0123456789#64))).map
      (fun t => (t.val, t.status)) = some (0xABCDEF0123456781#64, 0x000#32) := by decide

/-- V-SET-11. -/
theorem test_setbit_sets_the_highest_position :
    (nextOf (exec (.setbit .w64 63 true) (withVal 0#64))).map (·.val) =
      some 0x8000000000000000#64 := by decide

/-- V-T2B-4: "Hi", most significant bit first. -/
theorem test_t2b_hi :
    (nextOf (exec .t2b (withText [] [0x48#8, 0x69#8]))).map (fun t => (t.blen, bitCells t 16)) =
      some (16#32, [false, true, false, false, true, false, false, false,
        false, true, true, false, true, false, false, true]) := by decide

/-- V-B2T-4: a two-byte character. -/
theorem test_b2t_two_byte_character :
    (nextOf (exec .b2t (withBits [true, true, false, false, false, false, true, true,
      true, false, true, false, true, false, false, true]))).map
      (fun t => (t.status, t.tlen, txtCells t 2)) = some (0x000#32, 2#32, [0xC3#8, 0xA9#8]) := by
  decide

/-- V-B2T-2: seven bits are not padded. -/
theorem test_b2t_partial_group_fails :
    (nextOf (exec .b2t (withBits [false, true, false, false, false, false, false]))).map
      (fun t => (t.status, t.tlen, txtCells t 2)) = some (0x003#32, 2#32, [0x7A#8, 0x7A#8]) := by
  decide

/-- V-INJ-5: the sentinel alone. -/
theorem test_inject_empty_message :
    (nextOf (exec .inject (withText (List.replicate 8 0#8) []))).map (fun t => carCells t 8) =
      some [0#8, 0#8, 0#8, 0#8, 1#8, 0#8, 1#8, 0#8] := by decide

/-- V-INJ-2: positions 7:1 stay. -/
theorem test_inject_into_ones :
    (nextOf (exec .inject (withText (List.replicate 24 0xFF#8) [0x48#8, 0x69#8]))).map
      (fun t => (t.status, carCells t 24)) =
      some (0x000#32, [0xFE#8, 0xFF#8, 0xFE#8, 0xFE#8, 0xFF#8, 0xFE#8, 0xFE#8, 0xFE#8,
        0xFE#8, 0xFF#8, 0xFF#8, 0xFE#8, 0xFF#8, 0xFE#8, 0xFE#8, 0xFF#8,
        0xFE#8, 0xFE#8, 0xFE#8, 0xFE#8, 0xFF#8, 0xFE#8, 0xFF#8, 0xFE#8]) := by decide

/-- V-EXT-3: a character that spans two groups. -/
theorem test_extract_two_byte_character :
    (nextOf (exec .extract (withCarrier (lsbBytes [0xC3#8, 0xA9#8, 0x0A#8])))).map
      (fun t => (t.status, t.gcnt, t.tlen, txtCells t 2)) =
      some (0x020#32, 3#32, 2#32, [0xC3#8, 0xA9#8]) := by decide

/-- V-EXT-9: 0A where a continuation byte is owed. -/
theorem test_extract_sentinel_inside_character_fails :
    (nextOf (exec .extract (withCarrier (lsbBytes [0xC3#8, 0x0A#8])))).map
      (fun t => (t.status, t.gcnt, t.tlen)) = some (0x033#32, 2#32, 0#32) := by decide

/-- V-UTF-5, 10, 12, 17, 20, 24, 25. -/
theorem test_utf8_ill_formed :
    [[0xC0#8, 0x80#8], [0xC3#8, 0x0A#8], [0xE0#8, 0x9F#8, 0xBF#8], [0xED#8, 0xA0#8, 0x80#8],
      [0xF0#8, 0x8F#8, 0xBF#8, 0xBF#8], [0xF4#8, 0x90#8, 0x80#8, 0x80#8],
      [0xF5#8, 0x80#8, 0x80#8, 0x80#8]].map utf8Valid = List.replicate 7 false := by decide

/-- V-UTF-7, 13, 16, 19, 21, 23, 28. -/
theorem test_utf8_well_formed :
    [[0xC2#8, 0x80#8], [0xE0#8, 0xA0#8, 0x80#8], [0xED#8, 0x9F#8, 0xBF#8], [0xEF#8, 0xBF#8, 0xBF#8],
      [0xF0#8, 0x90#8, 0x80#8, 0x80#8], [0xF4#8, 0x8F#8, 0xBF#8, 0xBF#8],
      [0x41#8, 0xC3#8, 0xA9#8, 0x0A#8]].map utf8Valid = List.replicate 7 true := by decide

/-! ### The host bus -/

/-- V-BUS-1, 2, 3, 8: `ERROR` and no change. -/
theorem test_bus_errors :
    [HostEvent.write 0x00000004#32 1#64, .write 0x00000040#32 1#64, .write 0x00000018#32 65537#64,
      .write 0x01010000#32 1#64].map (fun e => nextOf (step (setPending [e] State.reset))) =
      List.replicate 4 (some (respond errorResponse State.reset)) := by decide

/-- V-BUS-9, 11: one cell, the low bits of the data. -/
theorem test_bus_cell_writes :
    (nextOf (step (setPending [.write 0x0100FFFF#32 0x1FF#64] State.reset))).map (·.car) =
        some [(65535, 0xFF#8)] ∧
      (nextOf (step (setPending [.write 0x03000000#32 3#64] State.reset))).map (·.bit) =
        some [(0, true)] := by decide

/-- V-ENC-15: `data[63:32]` of a `CMD` write is ignored. -/
theorem test_bus_command_write :
    (nextOf (step (setPending [.write 0x00000000#32 0x0000000100000005#64] State.reset))).map
      (fun t => (t.cmd, t.status, t.responses)) = some (0x00000005#32, 0x002#32, [okayWrite]) := by
  decide

/-- 70_reset_and_hazards.md R240: reset forgets the carrier. -/
theorem test_reset_event_forgets_cells :
    (nextOf (step (served .reset))).map (fun t => (t.clen, t.car, t.val)) = some (0#32, [], 0#64) := by
  decide

/-! ### Witnesses: concrete inputs that meet the hypotheses of the statements -/

theorem sample_inv : sample.Inv := by constructor <;> decide

theorem served_inv (addr : Word) (data : Wide) :
    (served (.read addr)).Inv ∧ (served (.write addr data)).Inv := by
  constructor <;> exact ⟨sample_inv.1, sample_inv.2, sample_inv.3, sample_inv.4, sample_inv.5,
    sample_inv.6, sample_inv.7, sample_inv.8, sample_inv.9, sample_inv.10, sample_inv.11,
    sample_inv.12, sample_inv.13, sample_inv.14, sample_inv.15⟩

theorem witness_WordsOfEachCommand :
    decode Params.standard 0x0000FF62#32 = .ok (.setbit .w32 255 true) ∧
      (Instr.getbit .w8 255).wellFormed Params.standard = true ∧
      (0x0000FF01#32).toNat = wordNumber (.getbit .w8 255) := ⟨rfl, rfl, rfl⟩

theorem witness_AtMostOneRowMatches :
    let row : OpcodeRow := { op := .setbit, mask := 0xFFFF008F#32, pattern := 0x00000002#32 }
    row ∈ opcodeTable ∧ row.hits 0x0000FF72#32 = true := by decide

theorem witness_EncodedCommandDecodes :
    (Instr.setbit .w64 255 true).wellFormed Params.standard = true := rfl

theorem witness_DecodedWordIsItsEncoding :
    decode Params.standard 0x00004031#32 = .ok (.getbit .w64 64) := rfl

/-- A word for each entry of R94's list, on an engine without W = 16, 32, 64 for the last three. -/
theorem witness_IllegalWords :
    let p : Params := { Params.standard with wide16 := false, wide32 := false, wide64 := false }
    [0x00000007#32, 0x00010001#32, 0x00000041#32, 0x00000103#32, 0x00000911#32, 0x00000921#32,
      0x00000931#32].Forall (IllegalByRule p) ∧
      (served (.write 0x00000000#32 7#64)).scan = none ∧
      ¬ IllegalByRule (served (.write 0x00000000#32 6#64)).params 6#32 := by
  simp only [List.Forall, IllegalByRule]
  refine ⟨⟨?_, ?_, ?_, ?_, ?_, ?_, ?_⟩, ?_, ?_⟩ <;> decide

theorem witness_StepRunsDecodedCommand_next :
    (served (.write 0x00000000#32 0x00000301#64)).scan = none ∧
      decode sample.params 0x00000301#32 = .ok (.getbit .w8 3) ∧
      ∃ t, exec (.getbit .w8 3) { sample with pending := [], cmd := 0x00000301#32 } = .next t :=
  ⟨rfl, rfl, _, rfl⟩

/-- The fault clause speaks of states that break R38: here `CLEN` above `CAR_MAX`. -/
theorem witness_StepRunsDecodedCommand_fault :
    exec .inject { sample with tlen := 8192#32, clen := 65544#32 } =
      .fault (.noSuchCell .car) := rfl

theorem witness_PlacedWordRunsNext :
    decode sample.params 0x00000006#32 = .ok .extract ∧
      (nextOf (exec .extract { sample with cmd := 0x00000006#32, scan := none })).isSome = true := by
  decide

theorem witness_IdleEngineHoldsItsState : sample.scan = none ∧ sample.pending = [] := ⟨rfl, rfl⟩

theorem witness_StepServesOneEvent :
    (served (.read 8#32)).scan = none ∧ (nextOf (step (served (.read 8#32)))).isSome = true ∧
      (nextOf (step (served .reset))).isSome = true ∧
      (nextOf (step (served (.write 0#32 6#64)))).isSome = true := by decide

theorem witness_ParametersNeverChange :
    (nextOf (step (served .reset))).isSome = true := by decide

theorem witness_ErrorResponsesExactly_bad :
    BadAddress sample.params 0x00000004 ∧ BadAddress sample.params 0x00000040 ∧
      BadAddress sample.params 0x01010000 ∧ BadAddress sample.params 0x02002000 ∧
      BadAddress sample.params 0x03010000 ∧ BadLength sample.params 0x18 65537#64 ∧
      BadLength sample.params 0x20 8193#64 ∧ BadLength sample.params 0x28 65537#64 := by
  simp only [BadAddress, BadLength]
  refine ⟨?_, ?_, ?_, ?_, ?_, ?_, ?_, ?_⟩ <;> decide

theorem witness_ErrorResponsesExactly_good :
    ¬ BadAddress sample.params 0x38 ∧ ¬ BadAddress sample.params 0x0100FFFF ∧
      ¬ BadAddress sample.params 0x02001FFF ∧ ¬ BadAddress sample.params 0x0300FFFF ∧
      ¬ (BadAddress sample.params 0x18 ∨ BadLength sample.params 0x18 65536#64) := by
  simp only [BadAddress, BadLength]
  refine ⟨?_, ?_, ?_, ?_, ?_⟩ <;> decide

/-- The last cell of each memory and the last register that holds state; the values are `sample`'s. -/
theorem witness_ReadsReturnTheirRegisterOrCell :
    sample.params.valid ∧ (served (.read 0x0100FFFF#32)).scan = none ∧
      (0x0100FFFF#32).toNat = 0x01000000 + 65535 ∧ 65535 < sample.params.carMax ∧
      (0x02001FFF#32).toNat = 0x02000000 + 8191 ∧ 8191 < sample.params.txtMax ∧
      (0x0300FFFF#32).toNat = 0x03000000 + 65535 ∧ 65535 < sample.params.bitsMax ∧
      (0x00000030#32).toNat = 0x30 ∧ (3#64).toNat = sample.gcnt.toNat := by decide

/-- A value for each of the ten cases of the read statement. -/
theorem witness_ReadsReturnTheirRegisterOrCell_values :
    (0#64).toNat = sample.cmd.toNat ∧ (0x20#64).toNat = sample.status.toNat ∧ 7#64 = sample.val ∧
      (24#64).toNat = sample.clen.toNat ∧ (2#64).toNat = sample.tlen.toNat ∧
      (8#64).toNat = sample.blen.toNat ∧ (0xFF#64).toNat = (readCar sample 23).toNat ∧
      (0x69#64).toNat = (readTxt sample 1).toNat ∧ (1#64).toNat = (readBit sample 7).toNat := by
  decide

theorem witness_CfgIsHardwired :
    (served (.read 0x00000038#32)).pending = [.read 0x00000038#32] ∧
      (served (.write 0x00000038#32 0#64)).pending = [.write 0x00000038#32 0#64] ∧
      sample.scan = none ∧ sample.params.wide16 = true ∧ sample.params.wide32 = true ∧
      sample.params.wide64 = true := by decide

theorem witness_ReadOnlyRegistersIgnoreWrites :
    (served (.write 0x00000030#32 5#64)).Inv ∧ (served (.read 0x00000008#32)).Inv ∧
      (served (.read 0x00000038#32)).Inv :=
  ⟨(served_inv _ _).2, (served_inv _ 0#64).1, (served_inv _ 0#64).1⟩

theorem witness_RegisterWritesStore :
    (served (.write 0x00000018#32 65536#64)).scan = none ∧
      (65536#64).toNat % 2 ^ 32 ≤ sample.params.carMax ∧
      (8192#64).toNat % 2 ^ 32 ≤ sample.params.txtMax ∧
      (65536#64).toNat % 2 ^ 32 ≤ sample.params.bitsMax := by decide

theorem witness_CellWritesStoreOneCell :
    sample.params.valid ∧ (served (.write 0x0100FFFF#32 0x1FF#64)).scan = none ∧
      (65535 < sample.params.carMax ∧ (0x0100FFFF#32).toNat = 0x01000000 + 65535) ∧
      (8191 < sample.params.txtMax ∧ (0x02001FFF#32).toNat = 0x02000000 + 8191) ∧
      (65535 < sample.params.bitsMax ∧ (0x0300FFFF#32).toNat = 0x03000000 + 65535) := by decide

theorem witness_ResetEventResetsEverything :
    (served .reset).scan = none ∧ (served .reset).pending = [.reset] := ⟨rfl, rfl⟩

/-- Positions at the edges of W: the bit primitives' statements, below W and at W. -/
theorem witness_positions : 63 < Width.bits .w64 ∧ 7 < Width.bits .w8 ∧ Width.bits .w8 ≤ 8 ∧
    Width.bits .w64 ≤ 255 := by decide

theorem witness_GetbitResult_word :
    decode Params.standard 0x00001011#32 = .ok (.getbit .w16 16) := rfl

theorem witness_SetbitResult_word :
    decode Params.standard 0x00003F72#32 = .ok (.setbit .w64 63 true) := rfl

theorem witness_SetBitThenGetBit :
    7 < Width.bits .w8 ∧ 0 < Width.bits .w8 ∧
      ∃ t, exec (.setbit .w8 7 true) sample = .next t := ⟨by decide, by decide, _, rfl⟩

theorem witness_GetbitIgnoresHigherBits :
    (0xFFFFFFFFFFFFFF07#64).setWidth (Width.bits .w8) = sample.val.setWidth (Width.bits .w8) ∧
      ∃ t, exec (.getbit .w8 7) sample = .next t := ⟨by decide, _, rfl⟩

theorem witness_ByteBitsAndFoldAreInverse : (byteBits 0x41#8).length = 8 := by decide

theorem witness_TextToBitsElements : 15 < 8 * [0x48#8, (0x69#8 : Byte)].length := by decide

theorem witness_BitsToTextInvertsTextToBits : [false].length % 8 ≠ 0 := by decide

theorem witness_SentinelOnlyAtCharacterBoundary :
    utf8Run utf8Start [0xC3#8, 0xA9#8] = some { need := 0, lo := 0x80#8, hi := 0xBF#8 } ∧
      utf8Step { need := 0, lo := 0x80#8, hi := 0xBF#8 } 0x0A#8 =
        some { need := 0, lo := 0x80#8, hi := 0xBF#8 } := by decide

theorem witness_T2bResult :
    sample.params.valid ∧ sample.tlen.toNat ≤ sample.params.txtMax ∧
      utf8Valid (txtCells sample sample.tlen.toNat) = true ∧ 0 < sample.tlen.toNat := by decide

theorem witness_B2tResult_succeeds :
    sample.blen.toNat ≤ sample.params.bitsMax ∧ sample.blen.toNat % 8 = 0 ∧
      utf8Valid ((List.range (sample.blen.toNat / 8)).map (bitGroup sample)) = true := by decide

/-- One bit over a whole group; one whole group that is no character (V-B2T-8). -/
theorem witness_B2tResult_fails :
    (withBits (List.replicate 9 true)).blen.toNat % 8 ≠ 0 ∧
      utf8Valid ((List.range 1).map (bitGroup (withBits (byteBits 0x80#8)))) = false := by decide

/-- `sample` has exactly the capacity for its message, 24 = 8 * (2 + 1). -/
theorem witness_InjectResult_succeeds :
    sample.clen.toNat ≤ sample.params.carMax ∧ sample.tlen.toNat ≤ sample.params.txtMax ∧
      8 * (sample.tlen.toNat + 1) = sample.clen.toNat := by decide

theorem witness_InjectResult_fails :
    let s : State := { sample with clen := 23#32 }
    s.clen.toNat ≤ s.params.carMax ∧ s.clen.toNat = 8 * (s.tlen.toNat + 1) - 1 := by decide

theorem witness_InjectComputesInjectFn :
    (injectFn (carCells sample 24) (txtCells sample 2)).isSome = true ∧
      injectFn (carCells sample 23) (txtCells sample 2) = none := by decide

theorem witness_InjectTouchesOnlyLsbs :
    (nextOf (exec .inject sample)).map (·.status) = some 0x000#32 := by decide

/-- The four conditions of R167 to R170, at 7 and 8 bytes left, and the terminal states. -/
theorem witness_ExtractTransitions :
    let s := withCarrier (lsbBytes [0x41#8, 0xC3#8, 0x0A#8])
    let owing : Utf8State := { need := 1, lo := 0x80#8, hi := 0xBF#8 }
    (setClen 23#32 s).clen.toNat < 8 * 2 + 8 ∧ 8 * 2 + 8 ≤ s.clen.toNat ∧
      utf8Step owing (groupByte s 2) = none ∧
      (utf8Step utf8Start (groupByte s 2)).isSome = true ∧ groupByte s 2 = 0x0A#8 ∧
      (utf8Step utf8Start (groupByte s 1)).isSome = true ∧ groupByte s 1 ≠ 0x0A#8 ∧
      ScanPhase.failed ≠ .scanning ∧ ScanPhase.terminated ≠ .scanning := by decide

theorem witness_ExtractScanTerminates :
    (withCarrier (lsbBytes [0x48#8, 0x69#8, 0x0A#8])).clen.toNat / 8 + 1 ≤ 4 := by decide

theorem witness_ExtractDeliversTheText :
    let s := withCarrier (lsbBytes [0x48#8, 0x69#8, 0x0A#8])
    s.params.valid ∧ s.clen.toNat ≤ s.params.carMax ∧ 8 * (2 + 1) ≤ s.clen.toNat ∧
      groupByte s 2 = 0x0A#8 ∧ (∀ j, j < 2 → groupByte s j ≠ 0x0A#8) ∧
      utf8Valid ((List.range 2).map (groupByte s)) = true := by decide

theorem witness_ExtractComputesExtractFn :
    let s := withCarrier (lsbBytes [0x48#8, 0x69#8, 0x0A#8])
    let s' := setClen 15#32 s
    (extractFn (carCells s s.clen.toNat)).text = some [0x48#8, 0x69#8] ∧
      (extractFn (carCells s' s'.clen.toNat)).text = none := by decide

/-- The two carriers differ after the sentinel's group (V-EXT-4). -/
theorem witness_ExtractReadSet :
    let s := withCarrier (lsbBytes [0x41#8, 0x0A#8, 0xFF#8])
    let s' := withCarrier (lsbBytes [0x41#8, 0x0A#8, 0x00#8])
    (nextOf (exec .extract s)).map (·.gcnt) = some 2#32 ∧ s'.params = s.params ∧ s'.clen = s.clen ∧
      carCells s' 16 = carCells s 16 ∧ readCar s' 16 ≠ readCar s 16 := by decide

theorem witness_ExtractSmallSteps :
    (nextOf (exec .extract (withCarrier (lsbBytes [0x41#8, 0x0A#8])))).isSome = true := by decide

theorem witness_RoundTrip :
    (injectFn (List.replicate 24 0xFF#8) [0xC3#8, 0xA9#8]).isSome = true ∧
      utf8Valid [0xC3#8, 0xA9#8] = true ∧ (0x0A#8 : Byte) ∉ [0xC3#8, 0xA9#8] ∧
      0x0A#8 ∉ txtCells sample sample.tlen.toNat := by decide

theorem witness_EmbeddedSentinelTruncates :
    (injectFn (List.replicate 32 0x80#8) ([0x61#8] ++ 0x0A#8 :: [0x62#8])).isSome = true ∧
      utf8Valid [0x61#8] = true ∧ (0x0A#8 : Byte) ∉ [0x61#8] := by decide

theorem witness_IllFormedMessageFailsToExtract :
    8 * ([(0xFF#8 : Byte)].length + 1) ≤ (List.replicate 16 (0#8 : Byte)).length ∧
      utf8Valid [0xFF#8] = false ∧ (0x0A#8 : Byte) ∉ [0xFF#8] := by decide

/-- Every command answers a next state on `sample`: the outcome and frame statements. -/
theorem witness_commands_answer_next :
    [Instr.getbit .w8 7, .setbit .w64 63 true, .t2b, .b2t, .inject, .extract].map
      (fun i => (nextOf (exec i sample)).isSome) = List.replicate 6 true := by decide

/-- Each failing command leaves a non-zero `ERR`; the sample's carrier of FF has no text. -/
theorem witness_FailingCommandChangesNothing :
    [Instr.getbit .w8 8, .setbit .w8 8 true, .extract].map
        (fun i => (nextOf (exec i sample)).map (fun t => errField t.status)) =
        [some 1#3, some 1#3, some 3#3] ∧
      (nextOf (exec .b2t { sample with blen := 7#32 })).map (fun t => errField t.status) =
        some 3#3 ∧
      (nextOf (exec .inject { sample with clen := 23#32 })).map (fun t => errField t.status) =
        some 2#3 := by decide

theorem witness_StepKeepsTheInvariant :
    (served (.write 0#32 6#64)).Inv ∧ (nextOf (step (served (.write 0#32 6#64)))).isSome = true :=
  ⟨(served_inv _ _).2, by decide⟩

end Sys2Proof.Tests
end

/-! # Proofs: what the state keeps, the frame of each command, and its registers (10_state.md) -/

namespace Sys2Proof.Machine

open Sys2Proof

/-! ### What every served event keeps -/

/-- A predicate that each part of serving a host event keeps: the response, the reset, the error of an
illegal word, a stored write, a command. -/
structure KeptByParts (P : State → Prop) : Prop where
  respond : ∀ (r : Response) (s : State), P s → P (respond r s)
  reset : ∀ s : State, P s → P (applyReset s)
  illegal : ∀ s : State, P s → P (raise .illegalCommand none s)
  write : ∀ {tgt : Target} {addr : Word} {d : Wide} {s t : State}, locate s.params addr = some tgt →
    writeTarget tgt d s = some t → P s → P t
  exec : ∀ {i : Instr} {s t : State}, exec i s = .next t → P s → P t

section
variable {P : State → Prop} (hP : KeptByParts P) {s t : State}
include hP

theorem KeptByParts.runCommand {word : Word} (hs : P s) (h : runCommand word s = .next t) : P t := by
  obtain ⟨i, t', -, hi, rfl⟩ | ⟨e, -, rfl⟩ := runCommand_eq_next h
  · exact hP.respond _ _ (hP.exec hi hs)
  · exact hP.respond _ _ (hP.illegal _ hs)

theorem KeptByParts.serveWrite {addr : Word} {d : Wide} (hs : P s) (h : serveWrite addr d s = .next t) :
    P t := by
  obtain rfl | ⟨tgt, s', hl, -, hw, rfl⟩ | ⟨hl, hr⟩ := serveWrite_eq_next h
  · exact hP.respond _ _ hs
  · exact hP.respond _ _ (hP.write hl hw hs)
  · exact hP.runCommand (hP.write (d := d) hl rfl hs) hr

theorem KeptByParts.serveRead {addr : Word} (hs : P s) : P (serveRead addr s) := by
  unfold Machine.serveRead
  split
  · exact hP.respond _ _ hs
  · exact hP.respond _ _ hs

theorem KeptByParts.serve {e : HostEvent} (hs : P s) (h : serve e s = .next t) : P t := by
  cases e with
  | read addr => cases h; exact hP.serveRead hs
  | write addr d => exact hP.serveWrite hs h
  | reset => cases h; exact hP.reset s hs

/-- A step between commands keeps what its parts and the taking of the event keep. -/
theorem KeptByParts.step
    (hpend : ∀ (events : List HostEvent) (s : State), P s → P (setPending events s))
    (hs : P s) (hscan : s.scan = none) (h : step s = .next t) : P t := by
  cases hp : s.pending with
  | nil =>
    rw [step_idle hscan hp] at h
    cases h
    exact hs
  | cons e rest =>
    simp only [Machine.step, hscan, serveNext, hp] at h
    exact hP.serve (hpend rest s hs) h

end

/-! ### The invariants of R38, operation by operation -/

/-- A stored length is in range. -/
theorem writeLength_eq_some {max : Nat} {d : Wide} {store : Word → State → State} {s t : State}
    (h : writeLength max d store s = some t) :
    (d.setWidth 32 : Word).toNat ≤ max ∧ t = store (d.setWidth 32) s := by
  unfold writeLength at h
  split at h
  · cases h
  · cases h
    exact ⟨Nat.le_of_not_lt ‹_›, rfl⟩

theorem toNat_ofNat_le (w n : Nat) : (BitVec.ofNat w n).toNat ≤ n := by
  rw [BitVec.toNat_ofNat]
  exact Nat.mod_le _ _

/-- The state after reset meets the invariants (R36, R38). -/
theorem inv_reset : State.reset.Inv where
  params_valid := by decide
  clen_le := by decide
  tlen_le := by decide
  blen_le := by decide
  gcnt_le := by decide
  err_le := by decide
  reserved_zero := rfl
  not_scanning := by decide
  car_wf := rfl
  txt_wf := rfl
  bit_wf := rfl
  car_within := rfl
  txt_within := rfl
  bit_within := rfl
  no_scan := rfl

namespace State.Inv

variable {s : State} (h : s.Inv)
include h

theorem setPending (events : List HostEvent) : (setPending events s).Inv := { h with }

theorem respond (r : Response) : (respond r s).Inv := { h with }

theorem setCmd (w : Word) : (setCmd w s).Inv := { h with }

theorem setVal (v : Wide) : (setVal v s).Inv := { h with }

theorem setClen {n : Word} (hn : n.toNat ≤ s.params.carMax) : (setClen n s).Inv :=
  { h with clen_le := hn }

theorem setTlen {n : Word} (hn : n.toNat ≤ s.params.txtMax) : (setTlen n s).Inv :=
  { h with tlen_le := hn }

theorem setBlen {n : Word} (hn : n.toNat ≤ s.params.bitsMax) : (setBlen n s).Inv :=
  { h with blen_le := hn }

theorem setGcnt {n : Word} (hn : n.toNat ≤ s.params.carMax / 8) : (setGcnt n s).Inv :=
  { h with gcnt_le := hn }

theorem setScan_none : (setScan none s).Inv := { h with no_scan := rfl }

theorem writeCar {i : Nat} (hi : i < s.params.carMax) (v : Byte) : (writeCar i v s).Inv :=
  { h with car_wf := Memory.wf_write h.car_wf i v, car_within := Memory.within_write h.car_within v hi }

theorem writeTxt {i : Nat} (hi : i < s.params.txtMax) (v : Byte) : (writeTxt i v s).Inv :=
  { h with txt_wf := Memory.wf_write h.txt_wf i v, txt_within := Memory.within_write h.txt_within v hi }

theorem writeBit {i : Nat} (hi : i < s.params.bitsMax) (v : Bit) : (writeBit i v s).Inv :=
  { h with bit_wf := Memory.wf_write h.bit_wf i v, bit_within := Memory.within_write h.bit_within v hi }

theorem storeCar {bytes : List Byte} (hl : bytes.length ≤ s.params.carMax) : (storeCar bytes s).Inv :=
  { h with
    car_wf := Memory.wf_writeList h.car_wf 0 bytes
    car_within := Memory.within_writeList bytes 0 h.car_within ((Nat.zero_add _).trans_le hl) }

theorem storeTxt {bytes : List Byte} (hl : bytes.length ≤ s.params.txtMax) : (storeTxt bytes s).Inv :=
  { h with
    txt_wf := Memory.wf_writeList h.txt_wf 0 bytes
    txt_within := Memory.within_writeList bytes 0 h.txt_within ((Nat.zero_add _).trans_le hl) }

theorem storeBit {bits : List Bit} (hl : bits.length ≤ s.params.bitsMax) : (storeBit bits s).Inv :=
  { h with
    bit_wf := Memory.wf_writeList h.bit_wf 0 bits
    bit_within := Memory.within_writeList bits 0 h.bit_within ((Nat.zero_add _).trans_le hl) }

/-- A packed `STATUS` has a listed error code and reserved bits 0, whatever was there (R23). -/
theorem packStatus (err : Err) {fsm : Fsm} (hf : fsm ≠ .scanning) (rbit : Bit) :
    ({ s with status := packStatus err fsm rbit } : State).Inv :=
  { h with
    err_le := by simpa using errCode_le err
    reserved_zero := packStatus_reserved err fsm rbit
    not_scanning := by simpa [fsmCode_eq_scanning_iff] using hf }

theorem complete {fsm : Fsm} (hf : fsm ≠ .scanning) (rbit : Bit) : (complete fsm rbit s).Inv :=
  h.packStatus .ok hf rbit

theorem raise_none (err : Err) : (raise err none s).Inv := h.packStatus err (by decide) false

theorem raise_some (err : Err) {g : Nat} (hg : 8 * g ≤ s.params.carMax) : (raise err (some g) s).Inv :=
  (h.setGcnt (n := BitVec.ofNat 32 g) ((toNat_ofNat_le 32 g).trans (by omega))).packStatus err
    (by decide) false

/-- Reset keeps the parameters and gives every other field the value it has in `State.reset`. -/
theorem applyReset : (applyReset s).Inv :=
  { inv_reset with
    params_valid := h.params_valid
    clen_le := Nat.zero_le _
    tlen_le := Nat.zero_le _
    blen_le := Nat.zero_le _
    gcnt_le := Nat.zero_le _
    car_within := rfl
    txt_within := rfl
    bit_within := rfl }

theorem writeTarget {tgt : Target} {addr : Word} {d : Wide} {t : State}
    (hl : locate s.params addr = some tgt) (hw : writeTarget tgt d s = some t) : t.Inv := by
  have hat := targetAt_of_locate hl
  cases tgt with
  | reg r =>
    cases r with
    | cmd => cases hw; exact h.setCmd _
    | val => cases hw; exact h.setVal d
    | clen => obtain ⟨hle, rfl⟩ := writeLength_eq_some hw; exact h.setClen hle
    | tlen => obtain ⟨hle, rfl⟩ := writeLength_eq_some hw; exact h.setTlen hle
    | blen => obtain ⟨hle, rfl⟩ := writeLength_eq_some hw; exact h.setBlen hle
    | status | gcnt | cfg => cases hw; exact h
  | car i => cases hw; exact h.writeCar hat.2 _
  | txt i => cases hw; exact h.writeTxt hat.2 _
  | bit i => cases hw; exact h.writeBit hat.2 _

theorem extractSucceeded {g : Nat} {acc : List Byte} (hg : 8 * g ≤ s.params.carMax)
    (hacc : acc.length ≤ s.params.txtMax) : (extractSucceeded g acc s).Inv :=
  have hstore := h.setScan_none.storeTxt hacc
  have htlen := hstore.setTlen (n := BitVec.ofNat 32 acc.length) ((toNat_ofNat_le 32 _).trans hacc)
  (htlen.setGcnt (n := BitVec.ofNat 32 g) ((toNat_ofNat_le 32 g).trans (by simp; omega))).complete
    (by decide) false

theorem exec {i : Instr} {t : State} (he : exec i s = .next t) : t.Inv := by
  cases i with
  | getbit w pos =>
    obtain ⟨-, rfl⟩ | ⟨-, rfl⟩ := execGetbit_next he
    · exact h.complete (by decide) _
    · exact h.raise_none _
  | setbit w pos bit =>
    obtain ⟨-, rfl⟩ | ⟨-, rfl⟩ := execSetbit_next he
    · exact (h.setVal _).complete (by decide) _
    · exact h.raise_none _
  | t2b =>
    obtain ⟨-, hle, rfl⟩ := execT2b_next he
    have hstore := h.storeBit (bits := textToBitsFn (textOperand s)) (by simpa [textOperand] using hle)
    exact (hstore.setBlen ((toNat_ofNat_le 32 _).trans hle)).complete (by decide) _
  | b2t =>
    obtain rfl | ⟨text, -, -, hle, rfl⟩ := execB2t_next he
    · exact h.raise_none _
    · exact ((h.storeTxt hle).setTlen ((toNat_ofNat_le 32 _).trans hle)).complete (by decide) _
  | inject =>
    obtain ⟨-, rfl⟩ | ⟨-, -, hle, rfl⟩ := execInject_next he
    · exact h.raise_none _
    · exact (h.storeCar (by simp [embed]; omega)).complete (by decide) _
  | extract =>
    obtain ⟨x, -, hg, ⟨-, rfl⟩ | ⟨-, hacc, rfl⟩⟩ := execExtract_next he
    · exact h.setScan_none.raise_some _ hg
    · exact h.extractSucceeded hg hacc

end State.Inv

/-- Every part of serving an event keeps the invariants of R38. -/
theorem inv_keptByParts : KeptByParts State.Inv where
  respond r _ h := h.respond r
  reset _ h := h.applyReset
  illegal _ h := h.raise_none _
  write hl hw h := h.writeTarget hl hw
  exec he h := h.exec he

/-- Settles O56: each part of serving an event keeps the invariants, and no scan is in progress. -/
theorem stepKeepsTheInvariant : Obligations.StepKeepsTheInvariant := fun _ _ hs h =>
  inv_keptByParts.step (fun events _ h => h.setPending events) hs hs.no_scan h

/-- Settles O55. -/
theorem resetMeetsTheInvariant : Obligations.ResetMeetsTheInvariant := inv_reset

/-! ### The parameters and the frame of each command (R35, R37) -/

theorem commitScan_params {s t : State} (h : commitScan s = .next t) : t.params = s.params := by
  unfold commitScan at h
  split at h
  · cases h; rfl
  · split at h
    · cases h; rfl
    · obtain ⟨-, h⟩ := withCells_eq_next h
      cases h; rfl
    · obtain ⟨-, h⟩ := withCells_eq_next h
      obtain ⟨-, h⟩ := withCells_eq_next h
      cases h; rfl

/-- A transition of a running scan, or its end, leaves the parameters alone. -/
theorem continueScan_params {x : Scan} {s t : State} (h : continueScan x s = .next t) :
    t.params = s.params := by
  unfold continueScan at h
  split at h
  · cases h; rfl
  · obtain ⟨t', ht', rfl⟩ := returnOkay_eq_next h
    exact (respond_params okayWrite t').trans (commitScan_params ht')

/-- R37, row GETBIT: only `STATUS` changes. -/
theorem exec_getbit_frame {w : Width} {pos : Nat} {s t : State} (h : exec (.getbit w pos) s = .next t) :
    ∃ status, t = { s with status := status } := by
  obtain ⟨-, rfl⟩ | ⟨-, rfl⟩ := execGetbit_next h <;> exact ⟨_, rfl⟩

/-- R37, row SETBIT: only `STATUS` and `VAL` change. -/
theorem exec_setbit_frame {w : Width} {pos : Nat} {b : Bit} {s t : State}
    (h : exec (.setbit w pos b) s = .next t) :
    ∃ status val, t = { s with status := status, val := val } := by
  obtain ⟨-, rfl⟩ | ⟨-, rfl⟩ := execSetbit_next h <;> exact ⟨_, _, rfl⟩

/-- R37, row T2B: only `BLEN`, `STATUS` and `BIT` change. -/
theorem exec_t2b_frame {s t : State} (h : exec .t2b s = .next t) :
    ∃ status blen bit, t = { s with status := status, blen := blen, bit := bit } := by
  obtain ⟨-, -, rfl⟩ := execT2b_next h
  exact ⟨_, _, _, rfl⟩

/-- R37, row B2T: only `TLEN`, `STATUS` and `TXT` change. -/
theorem exec_b2t_frame {s t : State} (h : exec .b2t s = .next t) :
    ∃ status tlen txt, t = { s with status := status, tlen := tlen, txt := txt } := by
  obtain rfl | ⟨text, -, -, -, rfl⟩ := execB2t_next h <;> exact ⟨_, _, _, rfl⟩

/-- R37, row INJECT: only `STATUS` and `CAR` change. -/
theorem exec_inject_frame {s t : State} (h : exec .inject s = .next t) :
    ∃ status car, t = { s with status := status, car := car } := by
  obtain ⟨-, rfl⟩ | ⟨-, -, -, rfl⟩ := execInject_next h <;> exact ⟨_, _, rfl⟩

/-- R37, row EXTRACT: only `TLEN`, `GCNT`, `STATUS` and `TXT` change, and no scan is left. -/
theorem exec_extract_frame {s t : State} (h : exec .extract s = .next t) :
    ∃ status tlen gcnt txt,
      t = { s with status := status, tlen := tlen, gcnt := gcnt, txt := txt, scan := none } := by
  obtain ⟨x, -, -, ⟨-, rfl⟩ | ⟨-, -, rfl⟩⟩ := execExtract_next h <;> exact ⟨_, _, _, _, rfl⟩

/-- `SameRegisters` leaves open `STATUS`, the memories and the scan state. -/
theorem sameRegisters_update (s : State) (status : Word) (car txt : List Host.Cell)
    (bit : List (Nat × Bit)) (scan : Option Scan) :
    SameRegisters s { s with status := status, car := car, txt := txt, bit := bit, scan := scan } :=
  ⟨rfl, rfl, rfl, rfl, rfl, rfl, rfl, rfl, rfl, rfl⟩

theorem exec_params {i : Instr} {s t : State} (h : exec i s = .next t) : t.params = s.params := by
  cases i with
  | getbit w pos => obtain ⟨_, rfl⟩ := exec_getbit_frame h; rfl
  | setbit w pos b => obtain ⟨_, _, rfl⟩ := exec_setbit_frame h; rfl
  | t2b => obtain ⟨_, _, _, rfl⟩ := exec_t2b_frame h; rfl
  | b2t => obtain ⟨_, _, _, rfl⟩ := exec_b2t_frame h; rfl
  | inject => obtain ⟨_, _, rfl⟩ := exec_inject_frame h; rfl
  | extract => obtain ⟨_, _, _, _, rfl⟩ := exec_extract_frame h; rfl

/-- Every part of serving an event keeps the parameters. -/
theorem params_keptByParts (p : Params) : KeptByParts (fun s => s.params = p) where
  respond _ _ h := h
  reset _ h := h
  illegal _ h := h
  write _ hw h := (writeTarget_keeps hw).1.trans h
  exec he h := (exec_params he).trans h

/-- Settles O11: by the parts of serving an event, or by the step of a running scan. -/
theorem parametersNeverChange : Obligations.ParametersNeverChange := by
  intro s t h
  cases hs : s.scan with
  | none => exact (params_keptByParts s.params).step (fun _ _ h => h) rfl hs h
  | some x =>
    rw [step_scan hs] at h
    exact continueScan_params h

/-- `SETBIT` writes no position of `VAL` but its own. -/
theorem getLsbD_val_exec_setbit_of_ne {w : Width} {pos q : Nat} {b : Bit} {s t : State}
    (h : exec (.setbit w pos b) s = .next t) (hq : q < 64) (hne : q ≠ pos) :
    t.val.getLsbD q = s.val.getLsbD q := by
  obtain ⟨-, rfl⟩ | ⟨-, rfl⟩ := execSetbit_next h
  · exact (getLsbD_setBitFn s.val b hq).trans (if_neg hne)
  · rfl

/-- Settles O52. -/
theorem bitPrimitiveFrame : Obligations.BitPrimitiveFrame := by
  refine fun w pos b s t => ⟨fun h => ?_, fun h => ?_, ?_⟩
  · obtain ⟨status, rfl⟩ := exec_getbit_frame h
    exact ⟨sameRegisters_update s _ _ _ _ _, rfl⟩
  · obtain ⟨status, val, rfl⟩ := exec_setbit_frame h
    exact ⟨sameRegisters_update { s with val := val } _ _ _ _ _, rfl,
      fun q => getLsbD_val_exec_setbit_of_ne h⟩
  · rintro (h | h) a
    · obtain ⟨status, rfl⟩ := exec_getbit_frame h
      exact ⟨rfl, rfl, rfl⟩
    · obtain ⟨status, val, rfl⟩ := exec_setbit_frame h
      exact ⟨rfl, rfl, rfl⟩

/-- `T2B` writes no cell of `BIT` from `8 * TLEN` on. -/
theorem readBit_exec_t2b_of_le {s t : State} (h : exec .t2b s = .next t) {a : Nat}
    (ha : 8 * s.tlen.toNat ≤ a) : readBit t a = readBit s a := by
  obtain ⟨-, -, rfl⟩ := execT2b_next h
  refine (readBit_storeBit s (textToBitsFn (textOperand s)) a).trans ?_
  rw [List.getElem?_eq_none (by simpa [textOperand, textLength] using ha), Option.getD_none]

/-- `B2T` writes no cell of `TXT` from `BLEN / 8` on. -/
theorem readTxt_exec_b2t_of_le {s t : State} (h : exec .b2t s = .next t) {a : Nat}
    (ha : s.blen.toNat / 8 ≤ a) : readTxt t a = readTxt s a := by
  obtain rfl | ⟨text, -, htext, -, rfl⟩ := execB2t_next h
  · rfl
  · have hl : text.length = s.blen.toNat / 8 := by
      simpa [bitsOperand, bitLength] using length_of_bitsToTextFn htext
    refine (readTxt_storeTxt s text a).trans ?_
    rw [List.getElem?_eq_none (hl ▸ ha), Option.getD_none]

/-- `INJECT` writes no cell of `CAR` from `8 * (TLEN + 1)` on. -/
theorem readCar_exec_inject_of_le {s t : State} (h : exec .inject s = .next t) {a : Nat}
    (ha : 8 * (s.tlen.toNat + 1) ≤ a) : readCar t a = readCar s a := by
  obtain ⟨-, rfl⟩ | ⟨-, -, -, rfl⟩ := execInject_next h
  · rfl
  · refine (readCar_injected s a).trans ?_
    rw [List.getElem?_eq_none (by simpa [textOperand, textLength] using ha), Option.elim_none]

/-- `EXTRACT` writes no cell of `TXT` from `GCNT - 1` on. -/
theorem readTxt_exec_extract_of_le {s t : State} (h : exec .extract s = .next t) {a : Nat}
    (ha : t.gcnt.toNat - 1 ≤ a) : readTxt t a = readTxt s a := by
  obtain ⟨x, hr, -, ⟨-, rfl⟩ | ⟨hp, -, rfl⟩⟩ := execExtract_next h
  · rfl
  · obtain ⟨hg, hterm⟩ := hr.bounds
    have hlen : carrierLength s < 2 ^ 32 := s.clen.isLt
    have hgcnt : (extractSucceeded x.g x.acc s).gcnt.toNat = x.acc.length + 1 := by
      rw [← hterm hp]
      exact (BitVec.toNat_ofNat x.g 32).trans (Nat.mod_eq_of_lt (by omega))
    rw [readTxt_extractSucceeded, List.getElem?_eq_none (by omega), Option.getD_none]

/-- Settles O53. -/
theorem serializerFrame : Obligations.SerializerFrame := by
  refine fun s t => ⟨fun h => ?_, fun h => ?_⟩
  · obtain ⟨status, blen, bit, rfl⟩ := exec_t2b_frame h
    exact ⟨sameRegisters_update { s with blen := blen } _ _ _ _ _, rfl,
      fun a => ⟨rfl, rfl, readBit_exec_t2b_of_le h⟩⟩
  · obtain ⟨status, tlen, txt, rfl⟩ := exec_b2t_frame h
    exact ⟨sameRegisters_update { s with tlen := tlen } _ _ _ _ _, rfl,
      fun a => ⟨rfl, rfl, readTxt_exec_b2t_of_le h⟩⟩

/-- Settles O54. -/
theorem carrierCodecFrame : Obligations.CarrierCodecFrame := by
  refine fun s t => ⟨fun h => ?_, fun h => ?_⟩
  · obtain ⟨status, car, rfl⟩ := exec_inject_frame h
    exact ⟨sameRegisters_update s _ _ _ _ _, rfl, fun a => ⟨rfl, rfl, readCar_exec_inject_of_le h⟩⟩
  · obtain ⟨status, tlen, gcnt, txt, rfl⟩ := exec_extract_frame h
    exact ⟨sameRegisters_update { s with tlen := tlen, gcnt := gcnt } _ _ _ _ _, rfl,
      fun a => ⟨rfl, rfl, readTxt_exec_extract_of_le h⟩⟩

/-! ### `VAL` and the bit primitives (R21) -/

theorem setWidth_setBitFn {W V : Nat} (h : V ≤ W) (v : BitVec W) (pos : Nat) (b : Bit) :
    (setBitFn v pos b).setWidth V = setBitFn (v.setWidth V) pos b := by
  apply BitVec.eq_of_getLsbD_eq
  intro q hq
  rw [BitVec.getLsbD_setWidth, getLsbD_setBitFn _ _ (hq.trans_le h), getLsbD_setBitFn _ _ hq,
    BitVec.getLsbD_setWidth]
  simp [hq]

theorem setBitFn_ushiftRight_of_lt {W pos n : Nat} (h : pos < n) (v : BitVec W) (b : Bit) :
    setBitFn v pos b >>> n = v >>> n := by
  apply BitVec.eq_of_getLsbD_eq
  intro q _
  rw [BitVec.getLsbD_ushiftRight, BitVec.getLsbD_ushiftRight]
  by_cases hq : n + q < W
  · rw [getLsbD_setBitFn v b hq, if_neg (by omega)]
  · rw [BitVec.getLsbD_of_ge _ _ (by omega), BitVec.getLsbD_of_ge _ _ (by omega)]

/-- Settles O24. -/
theorem setbitActsOnTheSelectedWidth : Obligations.SetbitActsOnTheSelectedWidth := by
  intro w pos bit s hpos
  exact ⟨complete .idle false (setVal (setBitFn s.val pos bit) s), if_pos hpos,
    setWidth_setBitFn (bits_pos_and_le w).2 s.val pos bit,
    setBitFn_ushiftRight_of_lt hpos s.val bit⟩

/-- Settles O26: `GETBIT` sees `VAL` through its `value` operand. -/
theorem getbitIgnoresHigherBits : Obligations.GetbitIgnoresHigherBits := by
  intro w pos s t v hv h
  have hop : valueOperand w { s with val := v } = valueOperand w s := hv
  obtain ⟨hlt, rfl⟩ | ⟨hle, rfl⟩ := execGetbit_next h
  · rw [← hop]
    exact if_pos hlt
  · exact if_neg (Nat.not_lt.2 hle)

/-! ### `STATUS` (R23, R33) -/

/-- Settles O49. -/
theorem commandOutcomes : Obligations.CommandOutcomes := by
  refine fun s t => ⟨fun w pos h => ?_, fun w pos b h => ?_, fun h => ?_, fun h => ?_, fun h => ?_,
    fun h => ?_⟩
  · obtain ⟨-, rfl⟩ | ⟨-, rfl⟩ := execGetbit_next h
    · rw [complete_status]
      cases getBitFn (valueOperand w s) pos
      · exact .inl rfl
      · exact .inr (.inl rfl)
    · exact .inr (.inr rfl)
  · obtain ⟨-, rfl⟩ | ⟨-, rfl⟩ := execSetbit_next h
    · exact .inl rfl
    · exact .inr rfl
  · obtain ⟨-, -, rfl⟩ := execT2b_next h
    rfl
  · obtain rfl | ⟨text, -, -, -, rfl⟩ := execB2t_next h
    · exact .inr rfl
    · exact .inl rfl
  · obtain ⟨-, rfl⟩ | ⟨-, -, -, rfl⟩ := execInject_next h
    · exact .inr rfl
    · exact .inl rfl
  · obtain ⟨x, -, -, ⟨-, rfl⟩ | ⟨-, -, rfl⟩⟩ := execExtract_next h
    · exact .inr rfl
    · exact .inl rfl

/-- A scan reads `CLEN` and `CAR`, not `STATUS`. -/
theorem scanIter_status (s : State) (status : Word) (n : Nat) (x : Scan) :
    scanIter { s with status := status } n x = scanIter s n x := by
  induction n generalizing x with
  | zero => rfl
  | succ n ih => exact ih _

/-- The commit of an ended scan overwrites `STATUS`. -/
theorem commitScan_status (s : State) (status : Word) {x : Scan} (hx : x.phase ≠ .scanning) :
    commitScan (setScan (some x) { s with status := status }) = commitScan (setScan (some x) s) := by
  obtain ⟨phase, g, acc, u⟩ := x
  cases phase with
  | scanning => exact absurd rfl hx
  | terminated => rfl
  | failed => rfl

theorem execExtract_status (s : State) (status : Word) :
    execExtract { s with status := status } = execExtract s := by
  rw [execExtract, execExtract, runScan_beginScan, runScan_beginScan, scanIter_status]
  exact commitScan_status s status (scanIter_terminates s)

/-- Settles O51: no operand is taken from `STATUS`, and every end of a command overwrites it. -/
theorem commandsIgnoreStatus : Obligations.CommandsIgnoreStatus := by
  intro i s status
  cases i with
  | getbit | setbit | t2b | b2t | inject => rfl
  | extract => exact execExtract_status s status

/-! ### The running scan (R34) -/

theorem step_setScan_of_scanning (s : State) {x : Scan} (hx : x.phase = .scanning) :
    step (setScan (some x) s) = .next (setScan (some (scanTransition s x)) s) :=
  if_pos hx

theorem step_setScan_of_ended (s : State) {x : Scan} (hx : x.phase ≠ .scanning) :
    step (setScan (some x) s) = returnOkay (commitScan (setScan (some x) s)) :=
  if_neg hx

/-- When `n` transitions end a scan, at most `n + 1` steps end it and commit what it found. -/
theorem exists_run_of_scanIter_ends {s t : State} {n : Nat} {x : Scan}
    (hend : (scanIter s n x).phase ≠ .scanning)
    (h : commitScan (setScan (some (scanIter s n x)) s) = .next t) :
    ∃ m ≤ n + 1, Host.Core.run Sys2Proof.core m (setScan (some x) s) = .next (respond okayWrite t) := by
  induction n generalizing x with
  | zero =>
    have hstep := step_setScan_of_ended s hend
    rw [h] at hstep
    exact ⟨1, le_rfl, core_run_of_step_next hstep⟩
  | succ n ih =>
    by_cases hx : x.phase = .scanning
    · obtain ⟨m, hm, hrun⟩ := ih hend h
      exact ⟨m + 1, by omega, (core_run_of_step_next (step_setScan_of_scanning s hx)).trans hrun⟩
    · rw [scanIter_of_terminal hx] at h
      have hstep := step_setScan_of_ended s hx
      rw [h] at hstep
      exact ⟨1, by omega, core_run_of_step_next hstep⟩

/-- Settles O45: one step for each transition up to the terminal one, then the commit. -/
theorem extractSmallStepsReachTheAtomicResult : Obligations.ExtractSmallStepsReachTheAtomicResult := by
  intro s t h
  have hcommit : commitScan (runScan (carrierLength s / 8 + 1) (beginScan s)) = .next t := h
  rw [runScan_beginScan] at hcommit
  exact exists_run_of_scanIter_ends (scanIter_terminates s) hcommit

/-! ### Host accesses to registers (R22 to R28) -/

theorem withCells_ne_refused {space : CellSpace} {n : Nat} {s : State} {r : Refusal}
    {next : Host.Outcome State Fault Refusal} (h : next ≠ .refused r) :
    withCells space n s next ≠ .refused r := by
  unfold withCells
  split
  · exact h
  · nofun

theorem commitScan_ne_refused (s : State) (r : Refusal) : commitScan s ≠ .refused r := by
  unfold commitScan
  split
  · nofun
  · split
    · nofun
    · exact withCells_ne_refused nofun
    · exact withCells_ne_refused (withCells_ne_refused nofun)

/-- No command is refused. -/
theorem exec_ne_refused (i : Instr) (s : State) (r : Refusal) : exec i s ≠ .refused r := by
  cases i with
  | getbit w pos =>
    simp only [exec, execGetbit]
    split <;> nofun
  | setbit w pos bit =>
    simp only [exec, execSetbit]
    split <;> nofun
  | t2b => exact withCells_ne_refused (withCells_ne_refused nofun)
  | b2t =>
    simp only [exec, execB2t]
    split
    · nofun
    · apply withCells_ne_refused
      split
      · nofun
      · exact withCells_ne_refused nofun
  | inject =>
    simp only [exec, execInject]
    split
    · nofun
    · exact withCells_ne_refused (withCells_ne_refused nofun)
  | extract => exact commitScan_ne_refused _ r

/-- A `CMD` write of a command's word is the command, in the state that stored the word, then `OKAY`. -/
theorem step_cmd_write {s : State} {rest : List HostEvent} {data : Wide} {i : Instr}
    (hs : s.scan = none) (hp : s.pending = .write 0x00000000#32 data :: rest)
    (hd : decode s.params (data.setWidth 32) = .ok i) :
    step s = returnOkay (exec i { s with pending := rest, cmd := data.setWidth 32 }) := by
  rw [step_write hs hp, serveWrite_cmd (locate_cmd _), runCommand]
  simp only [setCmd_params, setPending_params, commandWord, hd]
  rfl

/-- Settles O7. -/
theorem stepRunsDecodedCommand : Obligations.StepRunsDecodedCommand := by
  intro s rest data i hs hp hd
  have hstep := step_cmd_write hs hp hd
  refine ⟨fun t ht => ?_, fun f hf => ?_, exec_ne_refused i _⟩
  · rw [hstep, ht]
    rfl
  · rw [hstep, hf]
    rfl

/-- A stored write of a register other than `CMD` returns `OKAY` and does no more. -/
theorem step_register_write {s s' : State} {rest : List HostEvent} {addr : Word} {data : Wide} {r : Reg}
    (hs : s.scan = none) (hp : s.pending = .write addr data :: rest) (haddr : addr.toNat = regOffset r)
    (hr : r ≠ .cmd) (hw : writeTarget (.reg r) data (setPending rest s) = some s') :
    step s = .next (respond okayWrite s') := by
  rw [step_write hs hp]
  exact serveWrite_of_stored (locate_register _ r haddr) (by simpa using hr) hw

theorem step_register_read {s : State} {rest : List HostEvent} {addr : Word} {r : Reg}
    (hs : s.scan = none) (hp : s.pending = .read addr :: rest) (haddr : addr.toNat = regOffset r) :
    step s = .next (respond (okayRead (readReg r s)) (setPending rest s)) := by
  rw [step_read hs hp, serveRead, locate_register _ r haddr]
  cases r <;> rfl

/-- Settles O16. -/
theorem registerWritesStore : Obligations.RegisterWritesStore := by
  refine fun s rest data hs => ⟨fun hp => ?_, fun hp hle => ?_, fun hp hle => ?_, fun hp hle => ?_⟩
  · exact step_register_write (r := .val) hs hp rfl (by decide) rfl
  · exact step_register_write (r := .clen) hs hp rfl (by decide) (writeLength_of_le setClen _ hle)
  · exact step_register_write (r := .tlen) hs hp rfl (by decide) (writeLength_of_le setTlen _ hle)
  · exact step_register_write (r := .blen) hs hp rfl (by decide) (writeLength_of_le setBlen _ hle)

/-- The fields of `CFG` (R28): `SENTINEL` in 7:0, `WMASK` in 11:8, 0 above. -/
theorem readReg_cfg_fields (s : State) :
    (readReg .cfg s).toNat % 256 = 0x0A ∧ (readReg .cfg s).getLsbD 8 = true ∧
      (readReg .cfg s).getLsbD 9 = s.params.wide16 ∧ (readReg .cfg s).getLsbD 10 = s.params.wide32 ∧
      (readReg .cfg s).getLsbD 11 = s.params.wide64 ∧ (readReg .cfg s).toNat < 2 ^ 12 ∧
      (s.params.wide16 = true → s.params.wide32 = true → s.params.wide64 = true →
        readReg .cfg s = 0xF0A#64) := by
  simp only [readReg, cfgWord]
  generalize s.params.wide16 = w16
  generalize s.params.wide32 = w32
  generalize s.params.wide64 = w64
  revert w16 w32 w64
  decide

/-- Settles O14. -/
theorem cfgIsHardwired : Obligations.CfgIsHardwired := by
  refine fun s rest hs => ⟨fun hp => ?_, fun data hp => ?_⟩
  · exact ⟨readReg .cfg s, step_register_read (r := .cfg) hs hp rfl, readReg_cfg_fields s⟩
  · exact step_register_write (r := .cfg) hs hp rfl (by decide) rfl

/-- Settles O18: every register is 0, the memories list no cell, and `CFG` has all four widths. -/
theorem resetStateIsAsStated : Obligations.ResetStateIsAsStated :=
  ⟨rfl, rfl, rfl, rfl, rfl, rfl, rfl, rfl, fun _ => ⟨rfl, rfl, rfl⟩, rfl⟩

end Sys2Proof.Machine

/-! # Proofs: the host bus, one event a step, and the commands it starts (20_memory.md) -/

namespace Sys2Proof.Machine

open Sys2Proof

/-! ### What a command leaves to the bus -/

/-- No command touches the host's events or the responses, and none leaves a scan in progress. -/
theorem exec_bus_frame {i : Instr} {s t : State} (h : exec i s = .next t) :
    t.pending = s.pending ∧ t.responses = s.responses ∧ (s.scan = none → t.scan = none) := by
  cases i with
  | getbit w pos => obtain ⟨_, rfl⟩ := exec_getbit_frame h; exact ⟨rfl, rfl, id⟩
  | setbit w pos b => obtain ⟨_, _, rfl⟩ := exec_setbit_frame h; exact ⟨rfl, rfl, id⟩
  | t2b => obtain ⟨_, _, _, rfl⟩ := exec_t2b_frame h; exact ⟨rfl, rfl, id⟩
  | b2t => obtain ⟨_, _, _, rfl⟩ := exec_b2t_frame h; exact ⟨rfl, rfl, id⟩
  | inject => obtain ⟨_, _, rfl⟩ := exec_inject_frame h; exact ⟨rfl, rfl, id⟩
  | extract => obtain ⟨_, _, _, _, rfl⟩ := exec_extract_frame h; exact ⟨rfl, rfl, fun _ => rfl⟩

/-- No part of serving an event takes a further event or leaves a scan in progress (R71). -/
theorem pending_scan_keptByParts (rest : List HostEvent) :
    KeptByParts (fun s => s.pending = rest ∧ s.scan = none) where
  respond _ _ h := h
  reset _ h := ⟨h.1, rfl⟩
  illegal _ h := h
  write _ hw h := by
    obtain ⟨-, hpend, -, hscan, -⟩ := writeTarget_keeps hw
    exact ⟨hpend.trans h.1, hscan.trans h.2⟩
  exec he h := by
    obtain ⟨hpend, -, hscan⟩ := exec_bus_frame he
    exact ⟨hpend.trans h.1, hscan h.2⟩

/-! ### One event a step (R61, R71) -/

/-- A step between commands serves the oldest event. -/
theorem step_event {s : State} {e : HostEvent} {rest : List HostEvent} (hs : s.scan = none)
    (hp : s.pending = e :: rest) : step s = serve e (setPending rest s) := by
  simp [step, serveNext, hs, hp]

theorem runCommand_responses {word : Word} {s t : State} (h : runCommand word s = .next t) :
    t.responses = okayWrite :: s.responses := by
  obtain ⟨i, t', -, hi, rfl⟩ | ⟨e, -, rfl⟩ := runCommand_eq_next h
  · obtain ⟨-, hresp, -⟩ := exec_bus_frame hi
    rw [respond_responses, hresp]
  · rfl

theorem serveRead_responses (addr : Word) (s : State) :
    ∃ r, (serveRead addr s).responses = r :: s.responses := by
  unfold serveRead
  split
  · exact ⟨_, rfl⟩
  · exact ⟨_, rfl⟩

theorem serveWrite_responses {addr : Word} {data : Wide} {s t : State}
    (h : serveWrite addr data s = .next t) : ∃ r, t.responses = r :: s.responses := by
  obtain rfl | ⟨tgt, s', -, -, hw, rfl⟩ | ⟨-, hr⟩ := serveWrite_eq_next h
  · exact ⟨_, rfl⟩
  · obtain ⟨-, -, hresp, -⟩ := writeTarget_keeps hw
    exact ⟨okayWrite, congrArg _ hresp⟩
  · have hresp := runCommand_responses hr
    exact ⟨okayWrite, hresp⟩

/-- Settles O10: serving takes no further event, and only a reset returns no response. -/
theorem stepServesOneEvent : Obligations.StepServesOneEvent := by
  intro s t e rest hs hp h
  rw [step_event hs hp] at h
  obtain ⟨hpend, hscan⟩ :=
    (pending_scan_keptByParts rest).serve (s := setPending rest s) ⟨rfl, hs⟩ h
  refine ⟨hpend, hscan, ?_, ?_⟩
  · rintro rfl
    cases h
    rfl
  · intro hne
    cases e with
    | read addr => cases h; exact serveRead_responses addr _
    | write addr data => exact serveWrite_responses (s := setPending rest s) h
    | reset => exact absurd rfl hne

/-! ### Every command ends in range (41_carrier_codec.md R174, R70) -/

/-- `T2B` accesses only cells that exist. -/
theorem execT2b_of_inRange {s : State} (hv : s.params.valid) (ht : s.tlen.toNat ≤ s.params.txtMax) :
    execT2b s = .next (complete .idle false
      (setBlen (BitVec.ofNat 32 (8 * textLength s)) (storeBit (textToBitsFn (textOperand s)) s))) := by
  have hbit : 8 * textLength s ≤ s.params.bitsMax := hv.1 ▸ Nat.mul_le_mul_left 8 ht
  exact (withCells_of_le _ ht).trans (withCells_of_le _ hbit)

/-- `B2T` of whole groups of well-formed UTF-8. -/
theorem execB2t_of_decoded {s : State} {text : List Byte} (hv : s.params.valid)
    (hb : s.blen.toNat ≤ s.params.bitsMax) (htext : bitsToTextFn (bitsOperand s) = some text) :
    execB2t s =
      .next (complete .idle false (setTlen (BitVec.ofNat 32 text.length) (storeTxt text s))) := by
  have hl : text.length = s.blen.toNat / 8 := by
    simpa [bitsOperand, bitLength] using length_of_bitsToTextFn htext
  have htxt : text.length ≤ s.params.txtMax := by
    have := hv.1
    omega
  have hgroups : ¬ bitLength s % 8 ≠ 0 := by
    intro h
    rw [bitsToTextFn, if_pos (by simpa [bitsOperand] using h)] at htext
    cases htext
  rw [execB2t, if_neg hgroups, withCells_of_le _ hb, htext]
  exact withCells_of_le _ htxt

/-- `B2T` of anything else. -/
theorem execB2t_of_undecodable {s : State} (hb : s.blen.toNat ≤ s.params.bitsMax)
    (h : bitsToTextFn (bitsOperand s) = none) : execB2t s = .next (raise .decodeError none s) := by
  unfold execB2t
  split
  · rfl
  · rw [withCells_of_le _ hb, h]

theorem execInject_of_lt {s : State} (h : carrierLength s < needFor (textLength s)) :
    execInject s = .next (raise .capacityError none s) :=
  if_pos h

/-- `INJECT` with enough carrier accesses only cells that exist. -/
theorem execInject_of_le {s : State} (hc : s.clen.toNat ≤ s.params.carMax)
    (ht : s.tlen.toNat ≤ s.params.txtMax) (h : needFor (textLength s) ≤ carrierLength s) :
    execInject s = .next (complete .idle false (storeCar (embed (carCells s (needFor (textLength s)))
      (textToBitsFn (frame (textOperand s)))) s)) := by
  rw [execInject, if_neg (Nat.not_lt.2 h), withCells_of_le _ ht]
  exact withCells_of_le _ (h.trans hc)

/-- `EXTRACT` reads whole groups of the carrier, and one group more than the text it writes. -/
theorem execExtract_goesOn {s : State} (hv : s.params.valid) (hc : s.clen.toNat ≤ s.params.carMax) :
    ∃ t, execExtract s = .next t := by
  obtain ⟨x, hr, hp, -, he⟩ := execExtract_eq s
  obtain ⟨hg, hterm⟩ := hr.bounds
  have hcar : 8 * x.g ≤ s.params.carMax := hg.trans hc
  rw [he]
  cases hx : x.phase with
  | scanning => exact absurd hx hp
  | failed => exact ⟨_, commitScan_failed hx hcar⟩
  | terminated =>
    have htxt : x.acc.length ≤ s.params.txtMax := by
      have := hterm hx
      have := hv.2.1
      omega
    exact ⟨_, commitScan_terminated hx hcar htxt⟩

/-- Every command completes in a state that meets the invariants. -/
theorem State.Inv.exec_goesOn {s : State} (h : s.Inv) (i : Instr) : ∃ t, Machine.exec i s = .next t := by
  cases i with
  | getbit w pos =>
    by_cases hpos : pos < w.bits
    · exact ⟨_, if_pos hpos⟩
    · exact ⟨_, if_neg hpos⟩
  | setbit w pos b =>
    by_cases hpos : pos < w.bits
    · exact ⟨_, if_pos hpos⟩
    · exact ⟨_, if_neg hpos⟩
  | t2b => exact ⟨_, execT2b_of_inRange h.params_valid h.tlen_le⟩
  | b2t =>
    cases htext : bitsToTextFn (bitsOperand s) with
    | none => exact ⟨_, execB2t_of_undecodable h.blen_le htext⟩
    | some text => exact ⟨_, execB2t_of_decoded h.params_valid h.blen_le htext⟩
  | inject =>
    rcases Nat.lt_or_ge (carrierLength s) (needFor (textLength s)) with hlt | hle
    · exact ⟨_, execInject_of_lt hlt⟩
    · exact ⟨_, execInject_of_le h.clen_le h.tlen_le hle⟩
  | extract => exact execExtract_goesOn h.params_valid h.clen_le

theorem State.Inv.runCommand_goesOn {s : State} (h : s.Inv) (word : Word) :
    ∃ t, runCommand word s = .next t := by
  unfold runCommand
  split
  · rename_i i _
    obtain ⟨t, ht⟩ := h.exec_goesOn i
    exact ⟨Machine.respond okayWrite t, by rw [ht]; rfl⟩
  · exact ⟨_, rfl⟩

/-! ### The responses (R64) -/

/-- What an address names is neither unmapped nor misaligned. -/
theorem not_badAddress_of_targetAt {p : Params} {a : Nat} {tgt : Target} (h : targetAt p a tgt) :
    ¬ BadAddress p a := by
  unfold BadAddress
  cases tgt with
  | reg r =>
    have hr : regOffset r < 0x40 ∧ regOffset r % 8 = 0 := by cases r <;> decide
    simp only [targetAt] at h
    omega
  | car i | txt i | bit i =>
    simp only [targetAt] at h
    omega

/-- R64 (a), (b): `locate` finds nothing exactly at the bad addresses. -/
theorem locate_eq_none_iff {p : Params} {addr : Word} :
    locate p addr = none ↔ BadAddress p addr.toNat := by
  rcases locate_cases p addr with ⟨tgt, hl, hat⟩ | ⟨hl, hbad⟩
  · simp [hl, not_badAddress_of_targetAt hat]
  · exact ⟨fun _ => hbad, fun _ => hl⟩

theorem writeLength_eq_none_iff {max : Nat} {data : Wide} {store : Word → State → State} {s : State} :
    writeLength max data store s = none ↔ max < data.toNat % 2 ^ 32 := by
  rcases Nat.lt_or_ge max (data.toNat % 2 ^ 32) with h | h
  · simp only [writeLength_of_lt store s h, h]
  · simp only [writeLength_of_le store s h, Nat.not_lt.2 h, reduceCtorEq]

/-- R64 (c): of what an address names, a write refuses exactly a length above its maximum. -/
theorem writeTarget_eq_none_iff {a : Nat} {tgt : Target} {data : Wide} {s : State}
    (hat : targetAt s.params a tgt) : writeTarget tgt data s = none ↔ BadLength s.params a data := by
  cases tgt with
  | reg r =>
    cases hat
    cases r with
    | clen | tlen | blen => simp [writeTarget, writeLength_eq_none_iff, BadLength, regOffset]
    | cmd | status | val | gcnt | cfg => simp [writeTarget, BadLength, regOffset]
  | car i | txt i | bit i =>
    simp only [targetAt] at hat
    simp only [writeTarget, reduceCtorEq, BadLength, false_iff]
    omega

theorem serveWrite_of_bad {addr : Word} {data : Wide} {s : State}
    (h : BadAddress s.params addr.toNat ∨ BadLength s.params addr.toNat data) :
    serveWrite addr data s = .next (respond errorResponse s) := by
  unfold serveWrite
  cases hl : locate s.params addr with
  | none => rfl
  | some tgt =>
    have hat := targetAt_of_locate hl
    have hw := (writeTarget_eq_none_iff hat).2 (h.resolve_left (not_badAddress_of_targetAt hat))
    simp only [hw]

theorem State.Inv.serveWrite_of_good {addr : Word} {data : Wide} {s : State} (hs : s.Inv)
    (h : ¬ (BadAddress s.params addr.toNat ∨ BadLength s.params addr.toNat data)) :
    ∃ t, serveWrite addr data s = .next t ∧ t.responses = okayWrite :: s.responses := by
  obtain ⟨ha, hlen⟩ := not_or.1 h
  cases hl : locate s.params addr with
  | none => exact absurd (locate_eq_none_iff.1 hl) ha
  | some tgt =>
    by_cases hc : tgt = .reg .cmd
    · subst hc
      obtain ⟨t, ht⟩ := (hs.setCmd (commandWord data)).runCommand_goesOn (commandWord data)
      have hresp := runCommand_responses ht
      exact ⟨t, (serveWrite_cmd hl).trans ht, hresp⟩
    · cases hw : Machine.writeTarget tgt data s with
      | none => exact absurd ((writeTarget_eq_none_iff (targetAt_of_locate hl)).1 hw) hlen
      | some s' =>
        obtain ⟨-, -, hresp, -⟩ := writeTarget_keeps hw
        exact ⟨_, serveWrite_of_stored hl hc hw, congrArg _ hresp⟩

theorem step_read_of_bad {s : State} {rest : List HostEvent} {addr : Word} (hs : s.scan = none)
    (hp : s.pending = .read addr :: rest) (h : BadAddress s.params addr.toNat) :
    step s = .next (respond errorResponse (setPending rest s)) := by
  rw [step_read hs hp, serveRead, setPending_params, locate_eq_none_iff.2 h]

theorem readTarget_setPending (tgt : Target) (events : List HostEvent) (s : State) :
    readTarget tgt (setPending events s) = readTarget tgt s := by
  cases tgt with
  | reg r => cases r <;> rfl
  | car i | txt i | bit i => rfl

/-- A read of what an address names returns its value and changes nothing (R63, R75). -/
theorem step_read_target {s : State} {rest : List HostEvent} {addr : Word} {tgt : Target}
    (hs : s.scan = none) (hp : s.pending = .read addr :: rest)
    (hl : locate s.params addr = some tgt) :
    step s = .next (respond (okayRead (readTarget tgt s)) (setPending rest s)) := by
  rw [step_read hs hp, serveRead, setPending_params, hl]
  simp only [readTarget_setPending]

/-- Settles O12: `locate` and `writeTarget` answer nothing exactly in the cases of R64, and under the
invariants a `CMD` write returns whatever its command does. -/
theorem errorResponsesExactly : Obligations.ErrorResponsesExactly := by
  refine fun s rest addr hs => ⟨fun hp => ⟨fun hbad => ?_, fun hgood => ?_⟩,
    fun data hp => ⟨fun hbad => ?_, fun hgood => ?_⟩⟩
  · exact ⟨errorResponse, rfl, step_read_of_bad hs.no_scan hp hbad⟩
  · cases hl : locate s.params addr with
    | none => exact absurd (locate_eq_none_iff.1 hl) hgood
    | some tgt => exact ⟨_, rfl, step_read_target hs.no_scan hp hl⟩
  · exact ⟨errorResponse, rfl, (step_write hs.no_scan hp).trans (serveWrite_of_bad hbad)⟩
  · obtain ⟨t, ht, hresp⟩ := (hs.setPending rest).serveWrite_of_good hgood
    exact ⟨okayWrite, t, rfl, (step_write hs.no_scan hp).trans ht, hresp⟩

theorem State.Inv.serve_goesOn {s : State} (hs : s.Inv) (e : HostEvent) :
    ∃ t, serve e s = .next t := by
  cases e with
  | read addr => exact ⟨_, rfl⟩
  | reset => exact ⟨_, rfl⟩
  | write addr data =>
    by_cases hbad : BadAddress s.params addr.toNat ∨ BadLength s.params addr.toNat data
    · exact ⟨_, serveWrite_of_bad hbad⟩
    · obtain ⟨t, ht, -⟩ := hs.serveWrite_of_good hbad
      exact ⟨t, ht⟩

/-- Settles O57: the step is idle or serves one event, and no command faults in range. -/
theorem invariantStatesGoOn : Obligations.InvariantStatesGoOn := by
  intro s hs
  cases hp : s.pending with
  | nil => exact ⟨s, step_idle hs.no_scan hp⟩
  | cons e rest =>
    obtain ⟨t, ht⟩ := (hs.setPending rest).serve_goesOn e
    exact ⟨t, (step_event hs.no_scan hp).trans ht⟩

/-! ### Reads and writes of registers and cells (R60, R62, R63, R65) -/

/-- Zero extension keeps the value, so the value determines it. -/
theorem eq_setWidth_of_toNat_eq {w : Nat} (hw : w ≤ 64) {x : BitVec w} {v : Wide}
    (h : v.toNat = x.toNat) : v = x.setWidth 64 :=
  BitVec.eq_of_toNat_eq (h.trans (BitVec.toNat_setWidth_of_le hw).symm)

/-- Settles O13: each address names its register or cell, and the read returns that. -/
theorem readsReturnTheirRegisterOrCell : Obligations.ReadsReturnTheirRegisterOrCell := by
  intro s rest addr v hv hs hp hcases
  suffices hread : ∃ tgt, locate s.params addr = some tgt ∧ v = readTarget tgt s by
    obtain ⟨tgt, hl, rfl⟩ := hread
    exact step_read_target hs hp hl
  rcases hcases with ⟨ha, h⟩ | ⟨ha, h⟩ | ⟨ha, h⟩ | ⟨ha, h⟩ | ⟨ha, h⟩ | ⟨ha, h⟩ | ⟨ha, h⟩ |
    ⟨i, hi, ha, h⟩ | ⟨i, hi, ha, h⟩ | ⟨i, hi, ha, h⟩
  · exact ⟨_, locate_register _ .cmd ha, eq_setWidth_of_toNat_eq (by decide) h⟩
  · exact ⟨_, locate_register _ .status ha, eq_setWidth_of_toNat_eq (by decide) h⟩
  · exact ⟨_, locate_register _ .val ha, h⟩
  · exact ⟨_, locate_register _ .clen ha, eq_setWidth_of_toNat_eq (by decide) h⟩
  · exact ⟨_, locate_register _ .tlen ha, eq_setWidth_of_toNat_eq (by decide) h⟩
  · exact ⟨_, locate_register _ .blen ha, eq_setWidth_of_toNat_eq (by decide) h⟩
  · exact ⟨_, locate_register _ .gcnt ha, eq_setWidth_of_toNat_eq (by decide) h⟩
  · exact ⟨_, locate_carCell hv hi ha, eq_setWidth_of_toNat_eq (by decide) h⟩
  · exact ⟨_, locate_txtCell hv hi ha, eq_setWidth_of_toNat_eq (by decide) h⟩
  · exact ⟨_, locate_bitCell hv hi ha,
      eq_setWidth_of_toNat_eq (by decide) (h.trans (BitVec.toNat_ofBool _).symm)⟩

theorem readReg_status_reserved {s : State} (h : s.status &&& statusReserved = 0#32) :
    readReg .status s &&& 0xFFFFFEC8#64 = 0#64 :=
  calc s.status.setWidth 64 &&& statusReserved.setWidth 64
      = (s.status &&& statusReserved).setWidth 64 := BitVec.setWidth_and.symm
    _ = 0#64 := by rw [h]; rfl

theorem readReg_cfg_reserved (s : State) : readReg .cfg s &&& 0xFFFFF000#64 = 0#64 := by
  simp only [readReg, cfgWord]
  generalize s.params.wide16 = w16
  generalize s.params.wide32 = w32
  generalize s.params.wide64 = w64
  revert w16 w32 w64
  decide

/-- Settles O15: the bus stores nothing at the three addresses, and `STATUS` is packed, `CFG` hardwired. -/
theorem readOnlyRegistersIgnoreWrites : Obligations.ReadOnlyRegistersIgnoreWrites := by
  refine fun s rest hs => ⟨?_, ?_⟩
  · rintro addr data (rfl | rfl | rfl) hp
    · exact step_register_write (r := .status) hs.no_scan hp rfl (by decide) rfl
    · exact step_register_write (r := .gcnt) hs.no_scan hp rfl (by decide) rfl
    · exact step_register_write (r := .cfg) hs.no_scan hp rfl (by decide) rfl
  · rintro addr reserved (⟨rfl, rfl⟩ | ⟨rfl, rfl⟩) hp
    · exact ⟨_, readReg_status_reserved hs.reserved_zero,
        step_register_read (r := .status) hs.no_scan hp rfl⟩
    · exact ⟨_, readReg_cfg_reserved s, step_register_read (r := .cfg) hs.no_scan hp rfl⟩

/-- A stored write of anything but `CMD` returns `OKAY` and does no more. -/
theorem step_write_stored {s s' : State} {rest : List HostEvent} {addr : Word} {data : Wide}
    {tgt : Target} (hs : s.scan = none) (hp : s.pending = .write addr data :: rest)
    (hl : locate s.params addr = some tgt) (hc : tgt ≠ .reg .cmd)
    (hw : writeTarget tgt data (setPending rest s) = some s') :
    step s = .next (respond okayWrite s') :=
  (step_write hs hp).trans (serveWrite_of_stored hl hc hw)

/-- Settles O17: the address names the cell, and the write replaces that cell alone. -/
theorem cellWritesStoreOneCell : Obligations.CellWritesStoreOneCell := by
  refine fun s rest addr data i hv hs hp => ⟨fun hi ha => ?_, fun hi ha => ?_, fun hi ha => ?_⟩
  · refine ⟨_, step_write_stored hs hp (locate_carCell hv hi ha) nofun rfl, rfl, ?_, fun j hj => ?_⟩
    · have hread := readCar_writeCar (setPending rest s) i i (data.setWidth 8)
      exact (congrArg BitVec.toNat (hread.trans (if_pos rfl))).trans (BitVec.toNat_setWidth 8 data)
    · exact (readCar_writeCar (setPending rest s) i j (data.setWidth 8)).trans (if_neg hj)
  · refine ⟨_, step_write_stored hs hp (locate_txtCell hv hi ha) nofun rfl, rfl, ?_, fun j hj => ?_⟩
    · have hread := readTxt_writeTxt (setPending rest s) i i (data.setWidth 8)
      exact (congrArg BitVec.toNat (hread.trans (if_pos rfl))).trans (BitVec.toNat_setWidth 8 data)
    · exact (readTxt_writeTxt (setPending rest s) i j (data.setWidth 8)).trans (if_neg hj)
  · refine ⟨_, step_write_stored hs hp (locate_bitCell hv hi ha) nofun rfl, rfl, ?_, fun j hj => ?_⟩
    · exact (readBit_writeBit (setPending rest s) i i (data.getLsbD 0)).trans (if_pos rfl)
    · exact (readBit_writeBit (setPending rest s) i j (data.getLsbD 0)).trans (if_neg hj)

/-! ### The order of the bits of a byte (R66) -/

/-- In base 2 the first bit of a group has weight 128 (40_bit_codec.md R122). -/
theorem toNat_fold8 (g0 g1 g2 g3 g4 g5 g6 g7 : Bit) :
    (fold8 [g0, g1, g2, g3, g4, g5, g6, g7]).toNat =
      g0.toNat * 128 + g1.toNat * 64 + g2.toNat * 32 + g3.toNat * 16 + g4.toNat * 8 + g5.toNat * 4 +
        g6.toNat * 2 + g7.toNat := by
  revert g0 g1 g2 g3 g4 g5 g6 g7
  decide

/-- Settles O27, by the laws of the two functions. -/
theorem byteBitsAndFoldAreInverse : Obligations.ByteBitsAndFoldAreInverse :=
  ⟨byteBits_eq, fold8_byteBits, fun _ => byteBits_fold8, toNat_fold8⟩

/-! ### `INJECT` in place (41_carrier_codec.md R161, R78) -/

/-- `inject_fn` fails exactly on a carrier below the need. -/
theorem injectFn_eq_none_iff {c m : List Byte} : injectFn c m = none ↔ c.length < needFor m.length := by
  unfold injectFn
  split
  · exact ⟨fun _ => ‹_›, fun _ => rfl⟩
  · exact ⟨nofun, fun h => absurd h ‹_›⟩

theorem needFor_le_of_injectFn {c m r : List Byte} (h : injectFn c m = some r) :
    needFor m.length ≤ c.length := by
  rw [← Nat.not_lt, ← injectFn_eq_none_iff, h]
  nofun

/-- Byte `i` of what `inject_fn` gives: the stream bit of its index, if there is one, at position 0. -/
theorem getElem?_of_injectFn {carrier m r : List Byte} (h : injectFn carrier m = some r) (i : Nat) :
    r[i]? = carrier[i]?.map (fun x =>
      ((textToBitsFn (frame m))[i]?).elim x (fun b => setBitFn x 0 b)) := by
  unfold injectFn at h
  split at h
  · cases h
  · cases h
    rw [List.getElem?_mapIdx]
    cases (textToBitsFn (frame m))[i]? <;> rfl

theorem length_of_injectFn {c m r : List Byte} (h : injectFn c m = some r) : r.length = c.length := by
  unfold injectFn at h
  split at h
  · cases h
  · cases h
    exact List.length_mapIdx

/-- The carrier after a successful `INJECT` is what `inject_fn` gives, cell by cell. -/
theorem carCells_injected {s : State} {r : List Byte}
    (h : injectFn (carrierOperand s) (textOperand s) = some r) :
    carCells (storeCar (embed (carCells s (needFor (textLength s)))
      (textToBitsFn (frame (textOperand s)))) s) (carrierLength s) = r := by
  apply List.ext_getElem?
  intro i
  rw [getElem?_of_injectFn h, carrierOperand, getElem?_carCells, getElem?_carCells, readCar_injected]
  split <;> rfl

/-- Settles O37: the capacity checks agree, and so does every cell of the carrier. -/
theorem injectComputesInjectFn : Obligations.InjectComputesInjectFn := by
  refine fun s hc ht => ⟨fun hnone => ?_, fun r hr => ?_⟩
  · have hlt : carrierLength s < needFor (textLength s) := by
      simpa [carrierLength, textLength] using injectFn_eq_none_iff.1 hnone
    exact execInject_of_lt hlt
  · have hle : needFor (textLength s) ≤ carrierLength s := by
      simpa [carrierLength, textLength] using needFor_le_of_injectFn hr
    exact ⟨_, execInject_of_le hc ht hle, rfl, carCells_injected hr,
      (length_of_injectFn hr).trans (length_carCells s _)⟩

end Sys2Proof.Machine

/-! # Proofs: the command word, its decoder and its encoder (30_encoding.md) -/

namespace Sys2Proof

/-! ### The fields of a word (R91) -/

/-- The reserved bits 31:16 (R91). -/
def highField (word : Word) : BitVec 16 := word.extractLsb' 16 16

/-- The reserved bit 7 (R91). -/
def reservedBit (word : Word) : Bit := word.getLsbD 7

/-- A word is the sum of its fields at their places. -/
theorem toNat_eq_fields (word : Word) :
    word.toNat = (opField word).toNat + 0x10 * (wselField word).toNat + 0x40 * (bitField word).toNat +
      0x80 * (reservedBit word).toNat + 0x100 * (posField word).toNat + 0x10000 * (highField word).toNat := by
  have hlt := word.isLt
  simp only [opField, wselField, bitField, reservedBit, posField, highField, BitVec.extractLsb'_toNat,
    Nat.shiftRight_eq_div_pow, BitVec.getLsbD, Nat.toNat_testBit, Nat.reducePow]
  omega

/-- The fields determine the word. -/
theorem word_ext {a b : Word} (hop : opField a = opField b) (hsel : wselField a = wselField b)
    (hbit : bitField a = bitField b) (hres : reservedBit a = reservedBit b) (hpos : posField a = posField b)
    (hhigh : highField a = highField b) : a = b := by
  apply BitVec.eq_of_toNat_eq
  rw [toNat_eq_fields a, toNat_eq_fields b, hop, hsel, hbit, hres, hpos, hhigh]

/-- A mask acts on each field by itself. -/
theorem and_eq_iff_fields {word mask pattern : Word} : word &&& mask = pattern ↔
    opField word &&& opField mask = opField pattern ∧
    wselField word &&& wselField mask = wselField pattern ∧
    (bitField word && bitField mask) = bitField pattern ∧
    (reservedBit word && reservedBit mask) = reservedBit pattern ∧
    posField word &&& posField mask = posField pattern ∧
    highField word &&& highField mask = highField pattern := by
  simp only [opField, wselField, bitField, reservedBit, posField, highField, ← BitVec.extractLsb'_and,
    ← BitVec.getLsbD_and]
  constructor
  · rintro rfl
    exact ⟨rfl, rfl, rfl, rfl, rfl, rfl⟩
  · rintro ⟨hop, hsel, hbit, hres, hpos, hhigh⟩
    exact word_ext hop hsel hbit hres hpos hhigh

@[simp] theorem reservedBit_formatB (op : BitVec 4) (w : Width) (bit : Bit) (pos : Nat) :
    reservedBit (formatB op w bit pos) = false := by
  simp [reservedBit, formatB]

@[simp] theorem highField_formatB (op : BitVec 4) (w : Width) (bit : Bit) (pos : Nat) :
    highField (formatB op w bit pos) = 0#16 := by
  simp only [highField, formatB]
  generalize BitVec.ofNat 8 pos = q
  apply BitVec.eq_of_getLsbD_eq
  intro i hi
  interval_cases i <;> simp

/-- A word without reserved bits is the format B word of its fields. -/
theorem formatB_fields {word : Word} (hres : reservedBit word = false) (hhigh : highField word = 0#16) :
    formatB (opField word) (widthOfSel (wselField word)) (bitField word) (posField word).toNat = word := by
  apply word_ext <;> simp [hres, hhigh, sel_widthOfSel]

/-! ### Rows and words (R93, R95) -/

theorem hits_iff {row : OpcodeRow} {word : Word} :
    row.hits word = true ↔ word &&& row.mask = row.pattern := by
  simp [OpcodeRow.hits]

/-- Every row fixes `OP`. -/
theorem opField_of_hits {row : OpcodeRow} {word : Word} (hrow : row ∈ opcodeTable)
    (h : row.hits word = true) : opField word = opField row.pattern := by
  obtain ⟨hop, -⟩ := and_eq_iff_fields.1 (hits_iff.1 h)
  have hmask : ∀ r ∈ opcodeTable, opField r.mask = BitVec.allOnes 4 := by decide
  rwa [hmask row hrow, BitVec.and_allOnes] at hop

/-- Settles O2: every row fixes `OP`, and no two rows have one `OP`. -/
theorem atMostOneRowMatches : Obligations.AtMostOneRowMatches := by
  intro word r₁ r₂ h₁ h₂ hits₁ hits₂
  have hop : opField r₁.pattern = opField r₂.pattern :=
    (opField_of_hits h₁ hits₁).symm.trans (opField_of_hits h₂ hits₂)
  have hdistinct : ∀ a ∈ opcodeTable, ∀ b ∈ opcodeTable, opField a.pattern = opField b.pattern → a = b := by
    decide
  exact hdistinct r₁ h₁ r₂ h₂ hop

/-- The first row that matches is the only one: whatever row a word matches decides its command. -/
theorem decode_of_hits {p : Params} {word : Word} {row : OpcodeRow} (hrow : row ∈ opcodeTable)
    (h : row.hits word = true) (hwf : (row.op.build word).wellFormed p = true) :
    decode p word = .ok (row.op.build word) := by
  cases hfind : opcodeTable.find? (fun r => r.hits word) with
  | none => exact absurd h (List.find?_eq_none.1 hfind row hrow)
  | some r =>
    have hr : r = row := atMostOneRowMatches word r row (List.mem_of_find?_eq_some hfind) hrow
      (by simpa using List.find?_some hfind) h
    rw [decode, hfind, hr]
    exact if_pos hwf

/-- The words that `GETBIT`'s row matches. -/
theorem and_getbit_mask_iff {word : Word} : word &&& 0xFFFF00CF#32 = 0x00000001#32 ↔
    opField word = 1#4 ∧ bitField word = false ∧ reservedBit word = false ∧ highField word = 0#16 := by
  have hop : opField 0xFFFF00CF#32 = BitVec.allOnes 4 := by decide
  have hhigh : highField 0xFFFF00CF#32 = BitVec.allOnes 16 := by decide
  rw [and_eq_iff_fields, hop, hhigh, BitVec.and_allOnes, BitVec.and_allOnes]
  simp [opField, wselField, bitField, reservedBit, posField, highField]

/-- The words that `SETBIT`'s row matches. -/
theorem and_setbit_mask_iff {word : Word} : word &&& 0xFFFF008F#32 = 0x00000002#32 ↔
    opField word = 2#4 ∧ reservedBit word = false ∧ highField word = 0#16 := by
  have hop : opField 0xFFFF008F#32 = BitVec.allOnes 4 := by decide
  have hhigh : highField 0xFFFF008F#32 = BitVec.allOnes 16 := by decide
  rw [and_eq_iff_fields, hop, hhigh, BitVec.and_allOnes, BitVec.and_allOnes]
  simp [opField, wselField, bitField, reservedBit, posField, highField]

/-- A format S row fixes the whole word. -/
theorem eq_of_and_all {word pattern : Word} (h : word &&& 0xFFFFFFFF#32 = pattern) : pattern = word := by
  have hall : (0xFFFFFFFF#32 : Word) = BitVec.allOnes 32 := by decide
  rwa [hall, BitVec.and_allOnes, eq_comm] at h

/-! ### Decoding and encoding (R95, R96) -/

@[simp] theorem wellFormed_getbit_iff {p : Params} {w : Width} {pos : Nat} :
    (Instr.getbit w pos).wellFormed p = true ↔ pos < 256 ∧ p.supports w = true := by
  simp [Instr.wellFormed]

@[simp] theorem wellFormed_setbit_iff {p : Params} {w : Width} {pos : Nat} {bit : Bit} :
    (Instr.setbit w pos bit).wellFormed p = true ↔ pos < 256 ∧ p.supports w = true := by
  simp [Instr.wellFormed]

/-- The command built from the fields of a word that matches a row has that word. -/
theorem encode_build_of_hits {row : OpcodeRow} {word : Word} (hrow : row ∈ opcodeTable)
    (h : row.hits word = true) : encode (row.op.build word) = word := by
  rw [hits_iff] at h
  simp only [opcodeTable, List.mem_cons, List.not_mem_nil, or_false] at hrow
  rcases hrow with rfl | rfl | rfl | rfl | rfl | rfl
  · obtain ⟨hop, hbit, hres, hhigh⟩ := and_getbit_mask_iff.1 h
    have hword := formatB_fields hres hhigh
    rwa [hop, hbit] at hword
  · obtain ⟨hop, hres, hhigh⟩ := and_setbit_mask_iff.1 h
    have hword := formatB_fields hres hhigh
    rwa [hop] at hword
  all_goals exact eq_of_and_all h

theorem encode_hits_row (i : Instr) : Laws.EncodeHitsRow.Statement i := by
  cases i with
  | getbit w pos => exact Laws.EncodeHitsRow.getbit w pos
  | setbit w pos bit => exact Laws.EncodeHitsRow.setbit w pos bit
  | t2b => exact Laws.EncodeHitsRow.t2b
  | b2t => exact Laws.EncodeHitsRow.b2t
  | inject => exact Laws.EncodeHitsRow.inject
  | extract => exact Laws.EncodeHitsRow.extract

/-- The fields of a command's word give its operands back, if the position fits its field. -/
theorem build_encode {p : Params} {i : Instr} (hwf : i.wellFormed p = true) :
    (Laws.rowOf i).build (encode i) = i := by
  cases i with
  | getbit w pos | setbit w pos bit =>
    obtain ⟨hpos, -⟩ : pos < 256 ∧ p.supports w = true := by simpa using hwf
    simp [Laws.rowOf, Opcode.build, encode, widthOfSel_sel, Nat.mod_eq_of_lt hpos]
  | t2b | b2t | inject | extract => rfl

/-- Settles O3: a command's word matches the command's own row, and its fields are the operands. -/
theorem encodedCommandDecodes : Obligations.EncodedCommandDecodes := by
  intro p i hwf
  obtain ⟨row, hrow, hop, hits⟩ := encode_hits_row i
  have hbuild : row.op.build (encode i) = i := by rw [hop, build_encode hwf]
  have hdecode := decode_of_hits (p := p) hrow hits (by rwa [hbuild])
  rwa [hbuild] at hdecode

/-- Settles O4: a row fixes every bit of a word that is not in a field of its command. -/
theorem decodedWordIsItsEncoding : Obligations.DecodedWordIsItsEncoding := by
  intro p word i h
  obtain ⟨row, hrow, hits, rfl, hwf⟩ := exists_row_of_decode h
  exact ⟨hwf, encode_build_of_hits hrow hits⟩

/-- The decoder and the encoder are inverse on well-formed commands. -/
theorem decode_eq_ok_iff {p : Params} {word : Word} {i : Instr} :
    decode p word = .ok i ↔ i.wellFormed p = true ∧ encode i = word := by
  constructor
  · exact decodedWordIsItsEncoding p word i
  · rintro ⟨hwf, rfl⟩
    exact encodedCommandDecodes p i hwf

/-! ### The words as numbers (R91 to R93) -/

theorem toNat_formatB (op : BitVec 4) (w : Width) (bit : Bit) {pos : Nat} (hpos : pos < 256) :
    (formatB op w bit pos).toNat = op.toNat + 0x10 * w.sel.toNat + 0x40 * bit.toNat + 0x100 * pos := by
  rw [toNat_eq_fields]
  simp [Nat.mod_eq_of_lt hpos]

theorem toNat_encode {p : Params} {i : Instr} (hwf : i.wellFormed p = true) :
    (encode i).toNat = wordNumber i := by
  cases i with
  | getbit w pos | setbit w pos bit =>
    obtain ⟨hpos, -⟩ : pos < 256 ∧ p.supports w = true := by simpa using hwf
    rw [encode, toNat_formatB _ _ _ hpos]
    cases w <;> simp [Width.sel, wordNumber]
  | t2b | b2t | inject | extract => rfl

/-- Settles O5: decoding inverts encoding, and a command's word is the number written out. -/
theorem wordsOfEachCommand : Obligations.WordsOfEachCommand := by
  intro p word i
  rw [decode_eq_ok_iff]
  refine and_congr_right fun hwf => ?_
  rw [← toNat_encode hwf, eq_comm, BitVec.toNat_inj]

/-! ### The illegal words (R94) -/

theorem toNat_and_0xF (word : Word) : (word &&& 0xF#32).toNat = (opField word).toNat := by
  simpa [opField] using Nat.and_two_pow_sub_one_eq_mod word.toNat 4

theorem toNat_shift_and_3 (word : Word) : (word >>> 4 &&& 3#32).toNat = (wselField word).toNat := by
  simpa [wselField] using Nat.and_two_pow_sub_one_eq_mod (word.toNat >>> 4) 2

theorem toNat_shift_16 (word : Word) : (word >>> 16).toNat = (highField word).toNat := by
  have hlt := word.isLt
  simp only [highField, BitVec.toNat_ushiftRight, BitVec.extractLsb'_toNat, Nat.shiftRight_eq_div_pow]
  omega

theorem and_0xFF70_eq_zero_iff {word : Word} : word &&& 0xFF70#32 = 0#32 ↔
    wselField word = 0#2 ∧ bitField word = false ∧ posField word = 0#8 := by
  have hsel : wselField 0xFF70#32 = BitVec.allOnes 2 := by decide
  have hpos : posField 0xFF70#32 = BitVec.allOnes 8 := by decide
  rw [and_eq_iff_fields, hsel, hpos, BitVec.and_allOnes, BitVec.and_allOnes]
  simp [opField, wselField, bitField, reservedBit, posField, highField]

/-- Which `WSEL` values select a width of the engine (R92). -/
theorem supports_widthOfSel_iff {p : Params} {sel : BitVec 2} : p.supports (widthOfSel sel) = true ↔
    ¬ (sel = 1#2 ∧ p.wide16 = false) ∧ ¬ (sel = 2#2 ∧ p.wide32 = false) ∧
      ¬ (sel = 3#2 ∧ p.wide64 = false) := by
  obtain rfl | rfl | rfl | rfl : sel = 0#2 ∨ sel = 1#2 ∨ sel = 2#2 ∨ sel = 3#2 := by
    revert sel
    decide
  all_goals simp [widthOfSel, Params.supports]

/-- R94's list by fields: what a word that is not listed is like. -/
theorem not_illegalByRule_iff {p : Params} {word : Word} : ¬ IllegalByRule p word ↔
    (opField word ≠ 0#4 ∧ (opField word).toNat < 7) ∧
    (highField word = 0#16 ∧ reservedBit word = false) ∧
    (opField word = 1#4 → bitField word = false) ∧
    (3 ≤ (opField word).toNat →
      wselField word = 0#2 ∧ bitField word = false ∧ posField word = 0#8) ∧
    p.supports (widthOfSel (wselField word)) = true := by
  rw [supports_widthOfSel_iff, ← and_0xFF70_eq_zero_iff]
  unfold IllegalByRule
  simp only [ne_eq, ← BitVec.toNat_inj, toNat_and_0xF, toNat_shift_and_3, toNat_shift_16]
  simp [bitField, reservedBit]

/-- The opcodes that are not reserved (R93). -/
theorem legal_opcode_cases {op : BitVec 4} (h0 : op ≠ 0#4) (hlt : op.toNat < 7) :
    op = 1#4 ∨ op = 2#4 ∨ op = 3#4 ∨ op = 4#4 ∨ op = 5#4 ∨ op = 6#4 := by
  revert op
  decide

/-- A word that is not listed is the word of the command of its opcode. -/
theorem exists_encode_of_not_illegal {p : Params} {word : Word} (h : ¬ IllegalByRule p word) :
    ∃ i : Instr, i.wellFormed p = true ∧ encode i = word := by
  obtain ⟨⟨hop0, hop7⟩, ⟨hhigh, hres⟩, hget, hstream, hsup⟩ := not_illegalByRule_iff.1 h
  have hword := formatB_fields hres hhigh
  have hpos := (posField word).isLt
  generalize opField word = op at *
  obtain rfl | rfl | hop := legal_opcode_cases hop0 hop7
  · rw [hget rfl] at hword
    exact ⟨.getbit _ _, by simp [hpos, hsup], hword⟩
  · exact ⟨.setbit _ _ _, by simp [hpos, hsup], hword⟩
  · obtain ⟨hsel, hbit, hpos0⟩ := hstream (by rcases hop with rfl | rfl | rfl | rfl <;> decide)
    rw [hsel, hbit, hpos0] at hword
    rcases hop with rfl | rfl | rfl | rfl
    · exact ⟨.t2b, rfl, hword⟩
    · exact ⟨.b2t, rfl, hword⟩
    · exact ⟨.inject, rfl, hword⟩
    · exact ⟨.extract, rfl, hword⟩

/-- The word of a well-formed command is not listed. -/
theorem not_illegal_encode {p : Params} {i : Instr} (hwf : i.wellFormed p = true) :
    ¬ IllegalByRule p (encode i) := by
  rw [not_illegalByRule_iff]
  cases i with
  | getbit w pos | setbit w pos bit =>
    obtain ⟨-, hsup⟩ : pos < 256 ∧ p.supports w = true := by simpa using hwf
    simp [encode, widthOfSel_sel, hsup]
  | t2b | b2t | inject | extract => exact ⟨by decide, by decide, by decide, by decide, rfl⟩

/-- R94: the listed words are exactly those that decode to no command. -/
theorem not_illegalByRule_iff_decode {p : Params} {word : Word} :
    ¬ IllegalByRule p word ↔ ∃ i, decode p word = .ok i := by
  simp only [decode_eq_ok_iff]
  constructor
  · exact exists_encode_of_not_illegal
  · rintro ⟨i, hwf, rfl⟩
    exact not_illegal_encode hwf

end Sys2Proof

namespace Sys2Proof.Machine

open Sys2Proof

/-- A `CMD` write of a word that is no command only reports `IllegalCommand` (60_exceptions.md R204). -/
theorem step_cmd_write_of_error {s : State} {rest : List HostEvent} {data : Wide} {e : IllegalWord}
    (hs : s.scan = none) (hp : s.pending = .write 0x00000000#32 data :: rest)
    (hd : decode s.params (data.setWidth 32) = .error e) :
    step s = .next { s with
      pending := rest
      cmd := data.setWidth 32
      status := 0x004#32
      responses := { resp := .okay, data := none } :: s.responses } := by
  rw [step_write hs hp, serveWrite_cmd (locate_cmd _), runCommand]
  simp only [setCmd_params, setPending_params, commandWord, hd]
  rfl

/-- Settles O6: the listed words decode to no command, all others to one. -/
theorem illegalWordsListedAndHarmless : Obligations.IllegalWordsListedAndHarmless := by
  refine ⟨fun p => ⟨.inl (.inl rfl), .inl (.inr (by decide))⟩, fun s rest data hs hp => ⟨fun hill => ?_,
    not_illegalByRule_iff_decode.1⟩⟩
  cases hd : decode s.params (data.setWidth 32) with
  | ok i => exact absurd hill (not_illegalByRule_iff_decode.2 ⟨i, hd⟩)
  | error e => exact step_cmd_write_of_error hs hp hd

end Sys2Proof.Machine

/-! # Proofs: the commands of the Bit Codec (40_bit_codec.md) -/

namespace Sys2Proof

/-! ### The operands of a format B word (R91, R92) -/

/-- W = 8 << `WSEL` (R92). -/
theorem bits_eq_mul_two_pow_sel (w : Width) : w.bits = 8 * 2 ^ w.sel.toNat := by cases w <;> rfl

/-- A format B word as a number has `OP`, `BIT`, `WSEL` and `POS` at their places. -/
theorem formatB_operands (op : BitVec 4) (w : Width) (bit : Bit) {pos : Nat} (hpos : pos < 256) :
    (formatB op w bit pos).toNat % 16 = op.toNat ∧ (formatB op w bit pos).getLsbD 6 = bit ∧
      w.bits = 8 * 2 ^ ((formatB op w bit pos).toNat / 16 % 4) ∧
      pos = (formatB op w bit pos).toNat / 256 % 256 := by
  have hop := op.isLt
  have hsel := w.sel.isLt
  have hbit := bit.toNat_le
  have hword := toNat_formatB op w bit hpos
  have hwsel : (formatB op w bit pos).toNat / 16 % 4 = w.sel.toNat := by omega
  refine ⟨by omega, bitField_formatB op w bit pos, ?_, by omega⟩
  rw [hwsel, bits_eq_mul_two_pow_sel]

end Sys2Proof

namespace Sys2Proof.Machine

open Sys2Proof

/-! ### The bit primitives (R126, R127) -/

/-- Below W, the position that `GETBIT` reads is a binary digit of `VAL`. -/
theorem getBitFn_valueOperand {w : Width} {pos : Nat} (h : pos < w.bits) (s : State) :
    getBitFn (valueOperand w s) pos = decide (s.val.toNat / 2 ^ pos % 2 = 1) := by
  rw [getBitFn_eq_getLsbD _ h, valueOperand, BitVec.getLsbD_setWidth, decide_eq_true h, Bool.true_and,
    BitVec.getLsbD, Nat.testBit_eq_decide_div_mod_eq]

/-- `STATUS` of a completed command (95_test_vectors.md: 0x100 is `RBIT`). -/
theorem packStatus_ok_idle (rbit : Bit) :
    packStatus .ok .idle rbit = if rbit then 0x100#32 else 0x000#32 := by
  cases rbit <;> rfl

theorem exec_getbit_of_lt {w : Width} {pos : Nat} (h : pos < w.bits) (s : State) :
    exec (.getbit w pos) s = .next (complete .idle (getBitFn (valueOperand w s) pos) s) :=
  if_pos h

theorem exec_getbit_of_le {w : Width} {pos : Nat} (h : w.bits ≤ pos) (s : State) :
    exec (.getbit w pos) s = .next (raise .outOfRangeBitPosition none s) :=
  if_neg (Nat.not_lt.2 h)

theorem exec_setbit_of_lt {w : Width} {pos : Nat} (h : pos < w.bits) (bit : Bit) (s : State) :
    exec (.setbit w pos bit) s = .next (complete .idle false (setVal (setBitFn s.val pos bit) s)) :=
  if_pos h

theorem exec_setbit_of_le {w : Width} {pos : Nat} (h : w.bits ≤ pos) (bit : Bit) (s : State) :
    exec (.setbit w pos bit) s = .next (raise .outOfRangeBitPosition none s) :=
  if_neg (Nat.not_lt.2 h)

/-- Settles O22: a word that decodes to a command is the command's encoding. -/
theorem getbitResult : Obligations.GetbitResult := by
  refine fun w pos s => ⟨fun p word h => ?_, fun h => ?_, fun h => exec_getbit_of_le h s⟩
  · obtain ⟨hwf, rfl⟩ := decode_eq_ok_iff.1 h
    obtain ⟨hpos, -⟩ := wellFormed_getbit_iff.1 hwf
    exact formatB_operands 1#4 w false hpos
  · rw [exec_getbit_of_lt h, complete, getBitFn_valueOperand h, packStatus_ok_idle]
    simp only [decide_eq_true_eq]

/-- Settles O23: as for `GETBIT`, with `VAL` as `set_bit_fn` gives it. -/
theorem setbitResult : Obligations.SetbitResult := by
  refine fun w pos bit s =>
    ⟨fun p word h => ?_, fun h => exec_setbit_of_lt h bit s, fun h => exec_setbit_of_le h bit s⟩
  obtain ⟨hwf, rfl⟩ := decode_eq_ok_iff.1 h
  obtain ⟨hpos, -⟩ := wellFormed_setbit_iff.1 hwf
  exact formatB_operands 2#4 w bit hpos

/-! ### The serializer (R124, R128) -/

/-- Settles O28: index `i` is bit `i % 8` of byte `i / 8`. -/
theorem textToBitsElements : Obligations.TextToBitsElements := by
  refine fun t => ⟨length_textToBitsFn t, fun i _ => ?_⟩
  have h := getElem?_textToBitsFn t (i / 8) (Nat.mod_lt i (by decide : 0 < 8))
  rwa [Nat.div_add_mod] at h

/-- The cells of `BIT` after `T2B`: the bits of the text, MSB first. -/
theorem readBit_exec_t2b_of_lt {s t : State} (h : exec .t2b s = .next t) {j k : Nat}
    (hj : j < s.tlen.toNat) (hk : k < 8) : readBit t (8 * j + k) = (readTxt s j).getLsbD (7 - k) := by
  obtain ⟨-, -, rfl⟩ := execT2b_next h
  refine (readBit_storeBit s (textToBitsFn (textOperand s)) (8 * j + k)).trans ?_
  rw [getElem?_textToBitsFn _ _ hk, textOperand, getElem?_txtCells, textLength, if_pos hj,
    Option.map_some, Option.getD_some]

/-- Settles O32: with valid parameters `8 * TLEN` fits `BLEN`. -/
theorem t2bResult : Obligations.T2bResult := by
  refine ⟨fun p => encodedCommandDecodes p .t2b rfl, fun s hv ht => ?_⟩
  have hrun := execT2b_of_inRange hv ht
  have hblen : 8 * s.tlen.toNat < 2 ^ 32 := by
    obtain ⟨-, -, -, htxt, -⟩ := hv
    have : windowSize = 0x01000000 := rfl
    omega
  exact ⟨_, hrun, rfl, (BitVec.toNat_ofNat _ 32).trans (Nat.mod_eq_of_lt hblen),
    fun j k => readBit_exec_t2b_of_lt hrun, fun i => readBit_exec_t2b_of_le hrun⟩

/-! ### The deserializer (R125, R129) -/

/-- `bits_to_text_fn` succeeds on whole groups of well-formed UTF-8. -/
theorem bitsToTextFn_eq_some {bits : List Bit} (hlen : bits.length % 8 = 0)
    (hutf8 : utf8Valid (groupBytes bits) = true) : bitsToTextFn bits = some (groupBytes bits) := by
  rw [bitsToTextFn, if_neg (not_not.2 hlen), if_pos hutf8]

/-- `bits_to_text_fn` fails on a partial group and on ill-formed bytes. -/
theorem bitsToTextFn_eq_none {bits : List Bit}
    (h : bits.length % 8 ≠ 0 ∨ utf8Valid (groupBytes bits) = false) : bitsToTextFn bits = none := by
  unfold bitsToTextFn
  obtain hlen | hutf8 := h
  · exact if_pos hlen
  · rw [hutf8, if_neg Bool.false_ne_true, ite_self]

/-- A whole group of consecutive cells of `BIT`. -/
theorem group_bitCells (s : State) {n j : Nat} (h : j < n / 8) :
    ((bitCells s n).drop (8 * j)).take 8 = (List.range 8).map (fun k => readBit s (8 * j + k)) := by
  apply List.ext_getElem?
  intro k
  rw [List.getElem?_take, List.getElem?_map]
  by_cases hk : k < 8
  · rw [if_pos hk, List.getElem?_drop, getElem?_bitCells, if_pos (by omega), List.getElem?_range hk,
      Option.map_some]
  · rw [if_neg hk, List.getElem?_eq_none (by simpa using hk), Option.map_none]

/-- The bytes that `B2T` folds, from the cells of `BIT` (R129). -/
theorem groupBytes_bitsOperand (s : State) :
    groupBytes (bitsOperand s) = (List.range (s.blen.toNat / 8)).map (bitGroup s) := by
  rw [groupBytes, bitsOperand, length_bitCells, bitLength]
  refine List.map_congr_left fun j hj => ?_
  rw [group_bitCells s (List.mem_range.1 hj), bitGroup]

/-- The cells of `TXT` after the first `n` bytes of an indexed sequence were stored. -/
theorem readTxt_storeTxt_map_range (s : State) (f : Nat → Byte) {n j : Nat} (h : j < n) :
    readTxt (storeTxt ((List.range n).map f) s) j = f j := by
  rw [readTxt_storeTxt, List.getElem?_map, List.getElem?_range h, Option.map_some, Option.getD_some]

/-- Settles O33: `B2T` follows `bits_to_text_fn` on the folded groups. -/
theorem b2tResult : Obligations.B2tResult := by
  refine ⟨fun p => encodedCommandDecodes p .b2t rfl, fun s hv hb => ?_⟩
  rw [← groupBytes_bitsOperand]
  have hlen : (bitsOperand s).length = s.blen.toNat := length_bitCells s _
  refine ⟨fun hgroups hutf8 => ?_, fun h => ?_⟩
  · have hrun := execB2t_of_decoded hv hb (bitsToTextFn_eq_some (hlen ▸ hgroups) hutf8)
    rw [groupBytes_bitsOperand] at hrun
    have hblen := s.blen.isLt
    refine ⟨_, hrun, rfl, ?_, fun j => readTxt_storeTxt_map_range s (bitGroup s),
      fun j => readTxt_exec_b2t_of_le hrun⟩
    rw [complete_tlen, setTlen_tlen, List.length_map, List.length_range, BitVec.toNat_ofNat]
    exact Nat.mod_eq_of_lt (by omega)
  · exact execB2t_of_undecodable hb (bitsToTextFn_eq_none (hlen ▸ h))

end Sys2Proof.Machine

/-! # Proofs: the carrier codec (41_carrier_codec.md) -/

namespace Sys2Proof.Machine

open Sys2Proof

/-! ### The sentinel (R160, R169) -/

/-- Settles O31: no continuation byte's range reaches down to 0x0A. -/
theorem sentinelOnlyAtCharacterBoundary : Obligations.SentinelOnlyAtCharacterBoundary := by
  intro bytes u u' hrun hstep
  have hneed : u.need = 0 := need_eq_zero_of_sentinel (utf8Run_lo (by decide) hrun) hstep
  exact ⟨hneed, (utf8Valid_iff bytes).2 ⟨u, hrun, hneed⟩⟩

/-- Settles O35: after the bits of the message stand the bits of the sentinel. -/
theorem framedStreamEndsInTheSentinel : Obligations.FramedStreamEndsInTheSentinel := by
  refine fun m => ⟨rfl, by simp, ?_⟩
  rw [frame, textToBitsFn_append, List.drop_left' (length_textToBitsFn m)]
  rfl

/-! ### What `INJECT` writes (R161 to R164) -/

theorem getElem?_frame_eq_framedByte {s : State} {j : Nat} (hj : j < s.tlen.toNat + 1) :
    (frame (textOperand s))[j]? = some (framedByte s j) := by
  rw [getElem?_frame_textOperand, textLength, framedByte]
  split
  · rfl
  · rw [if_pos (by omega)]
    rfl

/-- The cells that a successful `INJECT` writes: bit `k` of framed byte `j` at position 0. -/
theorem readCar_exec_inject_of_lt {s t : State} (h : exec .inject s = .next t)
    (hle : 8 * (s.tlen.toNat + 1) ≤ s.clen.toNat) {j k : Nat} (hj : j < s.tlen.toNat + 1) (hk : k < 8) :
    readCar t (8 * j + k) =
      setBitFn (readCar s (8 * j + k)) 0 ((framedByte s j).getLsbD (7 - k)) := by
  obtain ⟨hlt, -⟩ | ⟨-, -, -, rfl⟩ := execInject_next h
  · exact absurd hle (Nat.not_le.2 hlt)
  · refine (readCar_injected s (8 * j + k)).trans ?_
    rw [getElem?_textToBitsFn _ _ hk, getElem?_frame_eq_framedByte hj, Option.map_some, Option.elim_some]

/-- Settles O36: the capacity check, then the stream's bits in the carrier's cells. -/
theorem injectResult : Obligations.InjectResult := by
  refine ⟨fun p => encodedCommandDecodes p .inject rfl, fun s => ⟨fun hlt => execInject_of_lt hlt,
    fun hc ht hle => ?_⟩⟩
  have hrun := execInject_of_le hc ht hle
  refine ⟨_, hrun, rfl, fun j k hj hk => ?_, fun i => readCar_exec_inject_of_le hrun⟩
  rw [readCar_exec_inject_of_lt hrun hle hj hk, setBitFn_zero]

/-- `inject_fn` succeeds on every carrier that is long enough. -/
theorem exists_injectFn_of_le {c m : List Byte} (h : needFor m.length ≤ c.length) :
    ∃ r, injectFn c m = some r := by
  cases hr : injectFn c m with
  | none => exact absurd (injectFn_eq_none_iff.1 hr) (Nat.not_lt.2 h)
  | some r => exact ⟨r, rfl⟩

/-- Settles O38: the function and the command check the capacity alike. -/
theorem capacityBoundary : Obligations.CapacityBoundary := by
  refine ⟨fun c m => ⟨injectFn_eq_none_iff.2, fun h => ?_, fun h => ?_⟩,
    fun s hc ht => ⟨fun h => ?_, fun h => ?_⟩⟩
  · exact injectFn_eq_none_iff.2 (by rw [needFor]; omega)
  · obtain ⟨r, hr⟩ := exists_injectFn_of_le (c := c) (m := m) h.ge
    exact ⟨r, hr, length_of_injectFn hr⟩
  · exact execInject_of_lt (by rw [carrierLength, textLength, needFor]; omega)
  · exact ⟨_, execInject_of_le hc ht h.ge, rfl⟩

/-- `INJECT` writes position 0 of a carrier byte at most. -/
theorem readCar_exec_inject_shift {s t : State} (h : exec .inject s = .next t) (i : Nat) :
    readCar t i >>> 1 = readCar s i >>> 1 := by
  obtain ⟨-, rfl⟩ | ⟨-, -, -, rfl⟩ := execInject_next h
  · rfl
  · refine (congrArg (fun b : Byte => b >>> 1) (readCar_injected s i)).trans ?_
    cases (textToBitsFn (frame (textOperand s)))[i]? with
    | none => rfl
    | some b => exact setBitFn_zero_shift (readCar s i) b

/-- Settles O39. -/
theorem injectTouchesOnlyLsbs : Obligations.InjectTouchesOnlyLsbs :=
  fun _ _ h _ => ⟨readCar_exec_inject_shift h, fun _ => readCar_exec_inject_of_le h⟩

/-! ### The transitions of the scan (R165 to R170) -/

section
variable {s : State} {x : Scan} (hx : x.phase = .scanning)
include hx

theorem scanTransition_of_short (h : carrierLength s < 8 * x.g + 8) :
    scanTransition s x = scanEnds x := by
  simp only [scanTransition, hx, if_pos h]

theorem scanTransition_of_rejected (hlen : 8 * x.g + 8 ≤ carrierLength s)
    (hu : utf8Step x.u (groupByte s x.g) = none) : scanTransition s x = scanRejects x := by
  simp only [scanTransition, hx, if_neg (Nat.not_lt.2 hlen), hu]

theorem scanTransition_of_sentinel {u : Utf8State} (hlen : 8 * x.g + 8 ≤ carrierLength s)
    (hu : utf8Step x.u (groupByte s x.g) = some u) (hb : groupByte s x.g = sentinel) :
    scanTransition s x = scanTerminates x := by
  simp only [scanTransition, hx, if_neg (Nat.not_lt.2 hlen), hu, if_pos hb]

theorem scanTransition_of_accepted {u : Utf8State} (hlen : 8 * x.g + 8 ≤ carrierLength s)
    (hu : utf8Step x.u (groupByte s x.g) = some u) (hb : groupByte s x.g ≠ sentinel) :
    scanTransition s x = scanAppends (groupByte s x.g) u x := by
  simp only [scanTransition, hx, if_neg (Nat.not_lt.2 hlen), hu, if_neg hb]

end

/-- Settles O40. -/
theorem extractTransitions : Obligations.ExtractTransitions := fun _ _ =>
  ⟨fun hx h => scanTransition_of_short hx h,
    fun hx hlen hu => scanTransition_of_rejected hx hlen hu,
    fun hx hlen _ hu hb => scanTransition_of_sentinel hx hlen hu hb,
    fun hx hlen _ hu hb => scanTransition_of_accepted hx hlen hu hb,
    fun hx => scanTransition_of_terminal hx⟩

/-! ### `EXTRACT` up to the first sentinel (R166, R169, R171) -/

theorem utf8Run_singleton (u : Utf8State) (b : Byte) : utf8Run u [b] = utf8Step u b := by
  cases h : utf8Step u b <;> simp [utf8Run, h]

/-- A scan of `s` that has appended the first `n` groups. -/
def scanAfter (s : State) (n : Nat) (u : Utf8State) : Scan :=
  { phase := .scanning, g := n, acc := (List.range n).map (groupByte s), u := u }

theorem scanAppends_scanAfter (s : State) (n : Nat) (u v : Utf8State) :
    scanAppends (groupByte s n) u (scanAfter s n v) = scanAfter s (n + 1) u := by
  simp [scanAppends, scanAfter, List.range_succ]

/-- `n` groups that the automaton accepts, none of them the sentinel, are consumed and appended. -/
theorem scanIter_of_accepted {s : State} {n : Nat} {u : Utf8State} (hlen : 8 * n ≤ carrierLength s)
    (hno : ∀ j, j < n → groupByte s j ≠ sentinel)
    (hrun : utf8Run utf8Start ((List.range n).map (groupByte s)) = some u) :
    scanIter s n scanStart = scanAfter s n u := by
  induction n generalizing u with
  | zero =>
    cases hrun
    rfl
  | succ n ih =>
    rw [List.range_succ, List.map_append, utf8Run_append, Option.bind_eq_some_iff] at hrun
    obtain ⟨v, hv, hrun⟩ := hrun
    have hstep : utf8Step v (groupByte s n) = some u := (utf8Run_singleton v _).symm.trans hrun
    have hnext : scanTransition s (scanAfter s n v) = scanAppends (groupByte s n) u (scanAfter s n v) :=
      scanTransition_of_accepted rfl hlen hstep (hno n n.lt_succ_self)
    rw [scanIter_add, ih (by omega) (fun j hj => hno j (by omega)) hv, scanIter, scanIter, hnext,
      scanAppends_scanAfter]

/-- A valid text and the sentinel after it end the scan; the fuel of R174 reaches that far. -/
theorem scanIter_of_sentinel {s : State} {n : Nat} (hlen : 8 * (n + 1) ≤ carrierLength s)
    (hsent : groupByte s n = sentinel) (hno : ∀ j, j < n → groupByte s j ≠ sentinel)
    (hvalid : utf8Valid ((List.range n).map (groupByte s)) = true) :
    ∃ u, scanIter s (carrierLength s / 8 + 1) scanStart = scanTerminates (scanAfter s n u) := by
  obtain ⟨u, hrun, hneed⟩ := (utf8Valid_iff _).1 hvalid
  obtain ⟨d, hd⟩ : ∃ d, carrierLength s / 8 + 1 = n + (d + 1) := ⟨carrierLength s / 8 - n, by omega⟩
  have hstep := (congrArg (utf8Step u) hsent).trans (utf8Step_sentinel hneed)
  have hnext : scanTransition s (scanAfter s n u) = scanTerminates (scanAfter s n u) :=
    scanTransition_of_sentinel rfl hlen hstep hsent
  refine ⟨u, ?_⟩
  rw [hd, scanIter_add, scanIter_of_accepted (by omega) hno hrun, scanIter, hnext]
  exact scanIter_of_terminal (by simp [scanTerminates]) d

/-- `EXTRACT` commits the text before the first sentinel. -/
theorem execExtract_of_sentinel {s : State} {n : Nat} (hv : s.params.valid)
    (hc : s.clen.toNat ≤ s.params.carMax) (hlen : 8 * (n + 1) ≤ s.clen.toNat)
    (hsent : groupByte s n = sentinel) (hno : ∀ j, j < n → groupByte s j ≠ sentinel)
    (hvalid : utf8Valid ((List.range n).map (groupByte s)) = true) :
    execExtract s = .next (extractSucceeded (n + 1) ((List.range n).map (groupByte s)) s) := by
  obtain ⟨u, hscan⟩ := scanIter_of_sentinel hlen hsent hno hvalid
  obtain ⟨x, -, -, hx, hexec⟩ := execExtract_eq s
  obtain ⟨-, hcar, -⟩ := hv
  rw [hexec, hx, hscan]
  have htxt : ((List.range n).map (groupByte s)).length ≤ s.params.txtMax := by
    rw [List.length_map, List.length_range]
    omega
  exact commitScan_terminated rfl (hlen.trans hc) htxt

/-- Settles O42. -/
theorem extractDeliversTheText : Obligations.ExtractDeliversTheText := by
  intro s n hv hc hlen hsent hno hvalid
  have hclen := s.clen.isLt
  have htlen : ((List.range n).map (groupByte s)).length = n := by simp
  refine ⟨_, execExtract_of_sentinel hv hc hlen hsent hno hvalid, rfl, ?_, ?_, fun j hj => ?_,
    fun j hj => ?_⟩
  · refine (BitVec.toNat_ofNat _ 32).trans ?_
    rw [htlen, Nat.mod_eq_of_lt (by omega)]
  · exact (BitVec.toNat_ofNat _ 32).trans (Nat.mod_eq_of_lt (by omega))
  · exact readTxt_storeTxt_map_range (setScan none s) (groupByte s) hj
  · rw [readTxt_extractSucceeded, List.getElem?_eq_none (htlen.trans_le hj), Option.getD_none]

/-! ### The round trip on the functions (R161, R173, R176) -/

/-- Eight bits that are a byte's, MSB first, fold to the byte. -/
theorem fold8_map_range {f : Nat → Bit} {b : Byte} (h : ∀ k, k < 8 → f k = b.getLsbD (7 - k)) :
    fold8 ((List.range 8).map f) = b := by
  have hbits : (List.range 8).map f = byteBits b := List.map_congr_left fun k hk =>
    (h k (List.mem_range.1 hk)).trans (getBitFn_eq_getLsbD b (by omega)).symm
  rw [hbits, fold8_byteBits]

/-- The LSB of byte `8j+k` of an injected carrier is bit `k` of framed byte `j`. -/
theorem lsb_of_injectFn {c m r : List Byte} (h : injectFn c m = some r) {j k : Nat}
    (hj : j < (frame m).length) (hk : k < 8) :
    lsb (r.getD (8 * j + k) 0#8) = (frame m)[j].getLsbD (7 - k) := by
  have hc : 8 * j + k < c.length := by
    have hneed := needFor_le_of_injectFn h
    rw [needFor] at hneed
    rw [length_frame] at hj
    omega
  rw [List.getD_eq_getElem?_getD, getElem?_of_injectFn h, getElem?_textToBitsFn _ _ hk,
    List.getElem?_eq_getElem hj, List.getElem?_eq_getElem hc]
  exact lsb_setBitFn _ _

/-- The bytes folded from an injected carrier begin with the framed message. -/
theorem frame_prefix_carrierBytes {c m r : List Byte} (h : injectFn c m = some r) :
    frame m <+: carrierBytes r := by
  rw [List.prefix_iff_getElem?]
  intro j hj
  have hgroup : j < r.length / 8 := by
    have hneed := needFor_le_of_injectFn h
    rw [needFor] at hneed
    rw [length_frame] at hj
    rw [length_of_injectFn h]
    omega
  rw [carrierBytes, List.getElem?_map, List.getElem?_range hgroup, Option.map_some]
  exact congrArg some (fold8_map_range fun k hk => lsb_of_injectFn h hj hk)

/-- What comes after an accepted text cannot be rejected within it. -/
theorem firstReject_append {u u' : Utf8State} {a : List Byte} (h : utf8Run u a = some u')
    (b : List Byte) : firstReject u (a ++ b) = (firstReject u' b).map (· + a.length) := by
  induction a generalizing u with
  | nil =>
    cases h
    simp
  | cons x a ih =>
    cases hx : utf8Step u x with
    | none => simp [utf8Run, hx] at h
    | some v =>
      have hrun : utf8Run v a = some u' := by simpa [utf8Run, hx] using h
      simp only [List.cons_append, firstReject, hx, ih hrun, Option.map_map, List.length_cons]
      rfl

/-- The first sentinel of a byte sequence. -/
theorem findIdx?_sentinel {a : List Byte} (h : sentinel ∉ a) (rest : List Byte) :
    (a ++ sentinel :: rest).findIdx? (fun b => b == sentinel) = some a.length := by
  have hnone : a.findIdx? (fun b => b == sentinel) = none := by
    simp only [List.findIdx?_eq_none_iff, beq_eq_false_iff_ne]
    rintro b hb rfl
    exact h hb
  simp [List.findIdx?_append, hnone, List.findIdx?_cons]

/-- `extract_fn` gives the text before the first sentinel when it is well-formed. -/
theorem extractFn_of_sentinel {c a rest : List Byte} (hy : carrierBytes c = a ++ sentinel :: rest)
    (hvalid : utf8Valid a = true) (hno : sentinel ∉ a) :
    extractFn c = { text := some a, groups := a.length + 1 } := by
  obtain ⟨u, hrun, hneed⟩ := (utf8Valid_iff a).1 hvalid
  simp only [extractFn, hy, findIdx?_sentinel hno, firstReject_append hrun, firstReject,
    utf8Step_sentinel hneed]
  cases firstReject { need := 0, lo := 0x80#8, hi := 0xBF#8 } rest with
  | none => simp
  | some f =>
    have hlt : a.length < f + 1 + a.length := by omega
    simp [hlt]

theorem extractFn_of_injectFn {c m r : List Byte} (h : injectFn c m = some r)
    (hvalid : utf8Valid m = true) (hno : sentinel ∉ m) :
    extractFn r = { text := some m, groups := m.length + 1 } := by
  obtain ⟨rest, hrest⟩ := frame_prefix_carrierBytes h
  rw [frame, List.append_assoc] at hrest
  exact extractFn_of_sentinel hrest.symm hvalid hno

/-! ### The round trip in command form (R173) -/

/-- The groups that `EXTRACT` folds after a successful `INJECT` are the bytes of the framed message. -/
theorem groupByte_exec_inject {s t : State} (h : exec .inject s = .next t)
    (hle : 8 * (s.tlen.toNat + 1) ≤ s.clen.toNat) {j : Nat} (hj : j < s.tlen.toNat + 1) :
    groupByte t j = framedByte s j :=
  fold8_map_range fun k hk => by rw [readCar_exec_inject_of_lt h hle hj hk, lsb_setBitFn]

theorem framedByte_of_lt {s : State} {j : Nat} (h : j < s.tlen.toNat) : framedByte s j = readTxt s j :=
  if_pos h

theorem framedByte_tlen (s : State) : framedByte s s.tlen.toNat = sentinel :=
  if_neg (Nat.lt_irrefl _)

/-- `EXTRACT` after a successful `INJECT` delivers the message. -/
theorem exists_extract_of_inject {s t : State} (h : exec .inject s = .next t) (hv : s.params.valid)
    (hc : s.clen.toNat ≤ s.params.carMax) (hle : 8 * (s.tlen.toNat + 1) ≤ s.clen.toNat)
    (hvalid : utf8Valid (txtCells s s.tlen.toNat) = true) (hno : sentinel ∉ txtCells s s.tlen.toNat) :
    ∃ u, exec .extract t = .next u ∧ u.status = 0x020#32 ∧ u.tlen = s.tlen ∧
      u.gcnt.toNat = s.tlen.toNat + 1 ∧ ∀ j, readTxt u j = readTxt s j := by
  have htext : ∀ j, j < s.tlen.toNat → groupByte t j = readTxt s j := fun j hj =>
    (groupByte_exec_inject h hle (by omega)).trans (framedByte_of_lt hj)
  have hsent := (groupByte_exec_inject h hle s.tlen.toNat.lt_succ_self).trans (framedByte_tlen s)
  have hcells : (List.range s.tlen.toNat).map (groupByte t) = txtCells s s.tlen.toNat :=
    List.map_congr_left fun j hj => htext j (List.mem_range.1 hj)
  have hfirst : ∀ j, j < s.tlen.toNat → groupByte t j ≠ sentinel := by
    intro j hj hb
    rw [htext j hj] at hb
    exact hno (hb ▸ List.mem_map_of_mem (List.mem_range.2 hj))
  rw [← hcells] at hvalid
  obtain ⟨status, car, rfl⟩ := exec_inject_frame h
  obtain ⟨u, hrun, hu, htlen, hgcnt, hlt, hge⟩ :=
    extractDeliversTheText { s with status := status, car := car } s.tlen.toNat hv hc hle hsent hfirst
      hvalid
  refine ⟨u, hrun, congrArg State.status hu, BitVec.eq_of_toNat_eq htlen, hgcnt, fun j => ?_⟩
  rcases Nat.lt_or_ge j s.tlen.toNat with hj | hj
  · exact (hlt j hj).trans (htext j hj)
  · exact hge j hj

/-- Settles O46: the carrier's LSBs fold back to the framed message, on the functions and in the cells. -/
theorem roundTrip : Obligations.RoundTrip := by
  refine ⟨fun c m r h hvalid hno => ?_, fun c m => exists_injectFn_of_le,
    fun s hv hc ht hle hvalid hno => ?_⟩
  · rw [extractFn_of_injectFn h hvalid hno]
  · have hinject := execInject_of_le hc ht hle
    obtain ⟨u, hextract⟩ := exists_extract_of_inject hinject hv hc hle hvalid hno
    exact ⟨_, u, hinject, hextract⟩

end Sys2Proof.Machine

/-! # Proofs: how a command fails, and the idle engine (60_exceptions.md) -/

namespace Sys2Proof.Machine

open Sys2Proof

/-! ### Error entry and precision (R208, R209) -/

theorem errField_complete (fsm : Fsm) (rbit : Bit) (s : State) :
    errField (complete fsm rbit s).status = 0#3 :=
  errField_packStatus .ok fsm rbit

/-- A command that leaves a non-zero `ERR` did not complete: all it did is error entry, and `EXTRACT`
alone gives a group count and ends its scan. -/
theorem eq_raise_of_failing {i : Instr} {s t : State} (h : exec i s = .next t)
    (herr : errField t.status ≠ 0#3) :
    (i ≠ .extract ∧ ∃ err, t = raise err none s) ∨
      (i = .extract ∧ ∃ err g, t = raise err (some g) (setScan none s)) := by
  cases i with
  | getbit w pos =>
    obtain ⟨-, rfl⟩ | ⟨-, rfl⟩ := execGetbit_next h
    · exact absurd (errField_complete ..) herr
    · exact .inl ⟨nofun, _, rfl⟩
  | setbit w pos bit =>
    obtain ⟨-, rfl⟩ | ⟨-, rfl⟩ := execSetbit_next h
    · exact absurd (errField_complete ..) herr
    · exact .inl ⟨nofun, _, rfl⟩
  | t2b =>
    obtain ⟨-, -, rfl⟩ := execT2b_next h
    exact absurd (errField_complete ..) herr
  | b2t =>
    obtain rfl | ⟨text, -, -, -, rfl⟩ := execB2t_next h
    · exact .inl ⟨nofun, _, rfl⟩
    · exact absurd (errField_complete ..) herr
  | inject =>
    obtain ⟨-, rfl⟩ | ⟨-, -, -, rfl⟩ := execInject_next h
    · exact .inl ⟨nofun, _, rfl⟩
    · exact absurd (errField_complete ..) herr
  | extract =>
    obtain ⟨x, -, -, ⟨-, rfl⟩ | ⟨-, -, rfl⟩⟩ := execExtract_next h
    · exact .inr ⟨rfl, _, _, rfl⟩
    · exact absurd (errField_complete ..) herr

/-- Settles O50: a failing command is error entry alone, with or without a group count. -/
theorem failingCommandChangesNothing : Obligations.FailingCommandChangesNothing := by
  intro i s t h herr
  obtain ⟨hi, err, rfl⟩ | ⟨rfl, err, g, rfl⟩ := eq_raise_of_failing h herr
  · exact ⟨rfl, rbitField_packStatus .., fun _ => ⟨rfl, rfl, fsmField_packStatus ..⟩,
      fun hx => absurd hx hi⟩
  · exact ⟨rfl, rbitField_packStatus .., fun hx => absurd rfl hx, fun _ => ⟨rfl, fsmField_packStatus ..⟩⟩

/-! ### The idle engine (R215) -/

/-- Settles O9. -/
theorem idleEngineHoldsItsState : Obligations.IdleEngineHoldsItsState := fun _ => step_idle

end Sys2Proof.Machine

/-! # Proofs: the reset event (70_reset_and_hazards.md) -/

namespace Sys2Proof.Machine

open Sys2Proof

/-- R35: `CFG` is a function of the parameters, which a reset keeps. -/
@[simp] theorem readReg_cfg_applyReset (s : State) :
    readReg .cfg (applyReset s) = readReg .cfg s := rfl

/-! A reset leaves every cell unwritten, so each reads as its free value of the new epoch (R36, R76). -/

@[simp] theorem readCar_applyReset (s : State) (i : Nat) :
    readCar (applyReset s) i = Config.unwrittenCar (s.epoch + 1) i := rfl

@[simp] theorem readTxt_applyReset (s : State) (i : Nat) :
    readTxt (applyReset s) i = Config.unwrittenTxt (s.epoch + 1) i := rfl

@[simp] theorem readBit_applyReset (s : State) (i : Nat) :
    readBit (applyReset s) i = Config.unwrittenBit (s.epoch + 1) i := rfl

/-- Settles O19: the step is `applyReset` with the event taken, and each clause is one of its fields or
one of its reads. -/
theorem resetEventResetsEverything : Obligations.ResetEventResetsEverything := by
  intro s rest hs hp
  let taken := setPending rest s
  exact ⟨applyReset taken, step_reset hs hp,
    applyReset_cmd taken, applyReset_status taken, applyReset_val taken, applyReset_clen taken,
    applyReset_tlen taken, applyReset_blen taken, applyReset_gcnt taken,
    readReg_cfg_applyReset taken,
    fun _ => ⟨rfl, rfl, rfl⟩,
    fun i => ⟨readCar_applyReset taken i, readTxt_applyReset taken i, readBit_applyReset taken i⟩,
    applyReset_scan taken, applyReset_params taken, applyReset_pending taken,
    applyReset_responses taken⟩

end Sys2Proof.Machine

/-! # Proofs: the functions of the Bit Codec, and text through the serializer (40_bit_codec.md) -/

namespace Sys2Proof.Machine

open Sys2Proof

/-! ### One position of a value (R120, R121, R130) -/

/-- Settles O20: the bit at a position is the binary digit of its weight. -/
theorem getBitIsBinaryPosition : Obligations.GetBitIsBinaryPosition := by
  intro w v p hp
  rw [getBitFn_eq_getLsbD v hp, BitVec.getLsbD, Nat.testBit_eq_decide_div_mod_eq, decide_eq_true_eq]

/-- The second shift-and-mask form: clear the position, then put the bit there. -/
theorem setBitFn_eq_clear_or {W : Nat} (v : BitVec W) (p : Nat) (b : Bit) :
    setBitFn v p b = (v &&& ~~~(1#W <<< p)) ||| ((BitVec.ofBool b).setWidth W <<< p) := by
  apply BitVec.eq_of_getLsbD_eq
  intro q hq
  rw [getLsbD_setBitFn v b hq]
  obtain hlt | rfl | hgt := Nat.lt_trichotomy q p
  · simp [hq, hlt, hlt.ne]
  · simp [hq]
  · simp [hq, hgt.ne', Nat.sub_ne_zero_of_lt hgt]

/-- Settles O21. -/
theorem setBitChangesOnePosition : Obligations.SetBitChangesOnePosition :=
  ⟨fun _ v p b _ => ⟨fun _ => getLsbD_setBitFn v b, setBitFn_eq_clear_or v p b⟩, rfl, rfl⟩

theorem getBitFn_setBitFn {W : Nat} (v : BitVec W) {p q : Nat} (b : Bit) (hq : q < W) :
    getBitFn (setBitFn v p b) q = if q = p then b else getBitFn v q := by
  rw [getBitFn_eq_getLsbD _ hq, getBitFn_eq_getLsbD _ hq, getLsbD_setBitFn v b hq]

/-- Settles O25: in command form, `GETBIT` reads its operand, and `SETBIT` acts on that operand as
`set_bit_fn` does. -/
theorem setBitThenGetBit : Obligations.SetBitThenGetBit := by
  refine fun w p q b hp hq => ⟨fun v => getBitFn_setBitFn v b hq, fun s t h => ?_⟩
  rw [exec_setbit_of_lt hp] at h
  cases h
  refine ⟨_, _, exec_getbit_of_lt hq _, exec_getbit_of_lt hq s, ?_⟩
  have hop : valueOperand w (complete .idle false (setVal (setBitFn s.val p b) s)) =
      setBitFn (valueOperand w s) p b := setWidth_setBitFn (bits_pos_and_le w).2 s.val p b
  rw [complete_status, complete_status, rbitField_packStatus, rbitField_packStatus, hop,
    getBitFn_setBitFn _ b hq]

/-! ### Text to bits and back (R125, R128, R129) -/

theorem bitsToTextFn_textToBitsFn (t : List Byte) :
    bitsToTextFn (textToBitsFn t) = if utf8Valid t then some t else none := by
  have hlen : (textToBitsFn t).length % 8 = 0 := by rw [length_textToBitsFn, Nat.mul_mod_right]
  rw [bitsToTextFn, if_neg (not_not.2 hlen), groupBytes_textToBitsFn]

/-- Settles O29. -/
theorem bitsToTextInvertsTextToBits : Obligations.BitsToTextInvertsTextToBits :=
  ⟨bitsToTextFn_textToBitsFn, fun _ h => bitsToTextFn_eq_none (.inl h)⟩

/-- `T2B` leaves in `BIT[0..BLEN)` the stream of the text. -/
theorem bitsOperand_exec_t2b {s t : State} (h : exec .t2b s = .next t)
    (hblen : t.blen.toNat = 8 * s.tlen.toNat) : bitsOperand t = textToBitsFn (textOperand s) := by
  have hlen : (textToBitsFn (textOperand s)).length = 8 * s.tlen.toNat := by
    rw [length_textToBitsFn, textOperand, length_txtCells, textLength]
  obtain ⟨-, -, rfl⟩ := execT2b_next h
  apply List.ext_getElem?
  intro i
  rw [bitsOperand, getElem?_bitCells, bitLength, hblen]
  split
  next hi =>
    have hread := readBit_storeBit s (textToBitsFn (textOperand s)) i
    rw [List.getElem?_eq_getElem (hlen ▸ hi), Option.getD_some] at hread
    rw [List.getElem?_eq_getElem (hlen ▸ hi)]
    exact congrArg some hread
  next hi => rw [List.getElem?_eq_none (hlen ▸ Nat.le_of_not_lt hi)]

/-- Storing the text that stands in `TXT[0..n)` changes no cell. -/
theorem readTxt_storeTxt_txtCells (s : State) (n j : Nat) :
    readTxt (storeTxt (txtCells s n) s) j = readTxt s j := by
  rw [readTxt_storeTxt, getElem?_txtCells]
  split <;> rfl

/-- Settles O34: `B2T` deserializes the stream that `T2B` left, and stores the text where it stood. -/
theorem t2bThenB2tRestoresTheText : Obligations.T2bThenB2tRestoresTheText := by
  intro s hv ht hutf8
  obtain ⟨t, hrun, hframe, hblen, -, -⟩ := t2bResult.2 s hv ht
  have hparams : t.params = s.params := exec_params hrun
  have htext : bitsToTextFn (bitsOperand t) = some (textOperand s) := by
    rw [bitsOperand_exec_t2b hrun hblen, bitsToTextFn_textToBitsFn]
    exact if_pos hutf8
  have hb : t.blen.toNat ≤ t.params.bitsMax := by
    rw [hblen, hparams, hv.1]
    exact Nat.mul_le_mul_left 8 ht
  refine ⟨t, _, hrun, execB2t_of_decoded (hparams ▸ hv) hb htext, rfl, ?_, fun j => ?_⟩
  · rw [complete_tlen, setTlen_tlen, textOperand, length_txtCells, textLength, BitVec.ofNat_toNat,
      BitVec.setWidth_eq]
  · rw [hframe]
    exact readTxt_storeTxt_txtCells s s.tlen.toNat j

/-! ### The UTF-8 automaton and the table (R123) -/

/-- The ranges of the bytes that the automaton still owes of a character. -/
def owedRanges (u : Utf8State) : List (Byte × Byte) :=
  match u.need with
  | 0 => []
  | n + 1 => (u.lo, u.hi) :: List.replicate n (0x80#8, 0xBF#8)

theorem owedRanges_eq_nil_iff {u : Utf8State} : owedRanges u = [] ↔ u.need = 0 := by
  unfold owedRanges
  cases u.need <;> simp

theorem owedRanges_of_owed {u : Utf8State} {n : Nat} (h : u.need = n + 1) :
    owedRanges u = (u.lo, u.hi) :: List.replicate n (0x80#8, 0xBF#8) := by
  rw [owedRanges, h]

theorem owedRanges_continuation (n : Nat) :
    owedRanges { need := n, lo := 0x80#8, hi := 0xBF#8 } = List.replicate n (0x80#8, 0xBF#8) := by
  cases n <;> rfl

theorem fitsRow_nil_right {row : List (Byte × Byte)} : fitsRow row [] = true ↔ row = [] := by
  cases row <;> simp [fitsRow]

theorem fitsRow_nil_left {char : List Byte} : fitsRow [] char = true ↔ char = [] := by
  cases char <;> simp [fitsRow]

theorem fitsRow_cons_cons {range : Byte × Byte} {b : Byte} {row : List (Byte × Byte)}
    {char : List Byte} : fitsRow (range :: row) (b :: char) = true ↔
      (range.1 ≤ b ∧ b ≤ range.2) ∧ fitsRow row char = true := by
  simp [fitsRow]

/-- At a character boundary the next byte starts a character, whatever range is left over. -/
theorem utf8Step_of_boundary {u : Utf8State} (h : u.need = 0) (b : Byte) :
    utf8Step u b = utf8Step utf8Start b := by
  rw [utf8Step, if_pos h]
  rfl

/-- Within a character the step takes the first owed range off. -/
theorem utf8Step_of_owed {u : Utf8State} {n : Nat} (h : u.need = n + 1) (b : Byte) :
    utf8Step u b =
      if u.lo ≤ b ∧ b ≤ u.hi then some { need := n, lo := 0x80#8, hi := 0xBF#8 } else none := by
  simp [utf8Step, h]

/-- A first byte of a row makes the automaton owe the rest of the row. -/
theorem utf8Step_of_row {range : Byte × Byte} {row : List (Byte × Byte)} {b : Byte}
    (hrow : range :: row ∈ utf8Table) (hb : range.1 ≤ b ∧ b ≤ range.2) :
    (utf8Step utf8Start b).map owedRanges = some row := by
  simp only [utf8Table, List.mem_cons, List.cons.injEq, List.not_mem_nil, or_false] at hrow
  rcases hrow with ⟨rfl, rfl⟩ | ⟨rfl, rfl⟩ | ⟨rfl, rfl⟩ | ⟨rfl, rfl⟩ | ⟨rfl, rfl⟩ | ⟨rfl, rfl⟩ |
    ⟨rfl, rfl⟩ | ⟨rfl, rfl⟩ | ⟨rfl, rfl⟩
  all_goals
    revert b
    decide

/-- A first byte that the automaton accepts is one of a row, and the automaton owes its rest. -/
theorem exists_row_of_utf8Step {b : Byte} {u : Utf8State} (h : utf8Step utf8Start b = some u) :
    ∃ range : Byte × Byte, range :: owedRanges u ∈ utf8Table ∧ range.1 ≤ b ∧ b ≤ range.2 := by
  have hneed : utf8Start.need = 0 := rfl
  rw [utf8Step, if_pos hneed] at h
  split_ifs at h
  all_goals cases h
  · exact ⟨(0x00#8, 0x7F#8), by decide, BitVec.le_def.2 (Nat.zero_le _), ‹_›⟩
  · exact ⟨(0xC2#8, 0xDF#8), by decide, ‹_›⟩
  · exact ⟨(0xE0#8, 0xE0#8), by decide, by simp [*]⟩
  · obtain hb | hb := ‹_ ∨ _›
    · exact ⟨(0xE1#8, 0xEC#8), by decide, hb⟩
    · exact ⟨(0xEE#8, 0xEF#8), by decide, hb⟩
  · exact ⟨(0xED#8, 0xED#8), by decide, by simp [*]⟩
  · exact ⟨(0xF0#8, 0xF0#8), by decide, by simp [*]⟩
  · exact ⟨(0xF1#8, 0xF3#8), by decide, ‹_›⟩
  · exact ⟨(0xF4#8, 0xF4#8), by decide, by simp [*]⟩

/-- What the automaton accepts from a state: the owed rest of a character, then characters. -/
theorem exists_split_of_utf8Run {bytes : List Byte} {u v : Utf8State} (h : utf8Run u bytes = some v)
    (hv : v.need = 0) : ∃ char rest, bytes = char ++ rest ∧ fitsRow (owedRanges u) char = true ∧
      WellFormedUtf8 rest := by
  induction bytes generalizing u with
  | nil =>
    cases h
    exact ⟨[], [], rfl, fitsRow_nil_right.2 (owedRanges_eq_nil_iff.2 hv), .nil⟩
  | cons b bytes ih =>
    rw [utf8Run] at h
    split at h
    next => cases h
    next u' hstep =>
      obtain ⟨char, rest, rfl, hchar, hrest⟩ := ih h
      cases hu : u.need with
      | zero =>
        rw [utf8Step_of_boundary hu] at hstep
        obtain ⟨range, hrow, hb⟩ := exists_row_of_utf8Step hstep
        refine ⟨[], b :: char ++ rest, rfl, fitsRow_nil_right.2 (owedRanges_eq_nil_iff.2 hu), ?_⟩
        exact .cons _ (b :: char) rest hrow (fitsRow_cons_cons.2 ⟨hb, hchar⟩) hrest
      | succ n =>
        rw [utf8Step_of_owed hu] at hstep
        split at hstep
        next hb =>
          cases hstep
          rw [owedRanges_continuation] at hchar
          refine ⟨b :: char, rest, rfl, ?_, hrest⟩
          rw [owedRanges_of_owed hu]
          exact fitsRow_cons_cons.2 ⟨hb, hchar⟩
        next => cases hstep

/-- The owed rest of a character takes the automaton to a character boundary. -/
theorem utf8Run_of_fitsRow {char : List Byte} {u : Utf8State}
    (h : fitsRow (owedRanges u) char = true) : ∃ v, utf8Run u char = some v ∧ v.need = 0 := by
  induction char generalizing u with
  | nil => exact ⟨u, rfl, owedRanges_eq_nil_iff.1 (fitsRow_nil_right.1 h)⟩
  | cons b char ih =>
    cases hu : u.need with
    | zero => simp [owedRanges_eq_nil_iff.2 hu, fitsRow] at h
    | succ n =>
      rw [owedRanges_of_owed hu, fitsRow_cons_cons] at h
      obtain ⟨hb, hchar⟩ := h
      rw [← owedRanges_continuation] at hchar
      rw [utf8Run, utf8Step_of_owed hu, if_pos hb]
      exact ih hchar

theorem utf8Valid_append {a : List Byte} {v : Utf8State} (h : utf8Run utf8Start a = some v)
    (hv : v.need = 0) (b : List Byte) : utf8Valid (a ++ b) = utf8Valid b := by
  have hrun : utf8Run utf8Start (a ++ b) = utf8Run v b := by rw [utf8Run_append, h, Option.bind_some]
  rw [utf8Valid, utf8Valid, hrun]
  cases b with
  | nil => simp [utf8Run, hv, utf8Start]
  | cons x b => rw [utf8Run, utf8Run, utf8Step_of_boundary hv]

/-- A character of a row takes the automaton from the start to a character boundary. -/
theorem utf8Run_of_row {row : List (Byte × Byte)} {char : List Byte} (hrow : row ∈ utf8Table)
    (hchar : fitsRow row char = true) : ∃ v, utf8Run utf8Start char = some v ∧ v.need = 0 := by
  cases row with
  | nil => exact absurd hrow (by decide)
  | cons range row =>
    cases char with
    | nil => cases hchar
    | cons b char =>
      obtain ⟨hb, htail⟩ := fitsRow_cons_cons.1 hchar
      obtain ⟨u, hstep, rfl⟩ := Option.map_eq_some_iff.1 (utf8Step_of_row hrow hb)
      rw [utf8Run, hstep]
      exact utf8Run_of_fitsRow htail

theorem utf8Valid_of_wellFormed {bytes : List Byte} (h : WellFormedUtf8 bytes) :
    utf8Valid bytes = true := by
  induction h with
  | nil => rfl
  | cons row char rest hrow hchar _ ih =>
    obtain ⟨v, hrun, hv⟩ := utf8Run_of_row hrow hchar
    rw [utf8Valid_append hrun hv, ih]

theorem wellFormed_of_utf8Valid {bytes : List Byte} (h : utf8Valid bytes = true) :
    WellFormedUtf8 bytes := by
  obtain ⟨v, hrun, hv⟩ := (utf8Valid_iff bytes).1 h
  obtain ⟨char, rest, rfl, hchar, hrest⟩ := exists_split_of_utf8Run hrun hv
  obtain rfl : char = [] := fitsRow_nil_left.1 hchar
  exact hrest

/-- Settles O30: the automaton owes at each byte exactly what the rows that match so far still ask. -/
theorem utf8AutomatonAcceptsTheTable : Obligations.Utf8AutomatonAcceptsTheTable :=
  fun _ => ⟨wellFormed_of_utf8Valid, utf8Valid_of_wellFormed⟩

end Sys2Proof.Machine

/-! # Proofs: extract_fn and EXTRACT (41_carrier_codec.md) -/

namespace Sys2Proof.Machine

open Sys2Proof

/-! ### Termination (R174) -/

/-- Settles O41: after `CLEN / 8 + 1` transitions the scan is terminal, so more change nothing. -/
theorem extractScanTerminates : Obligations.ExtractScanTerminates := by
  intro s n hn
  have hend := scanIter_terminates s
  obtain ⟨d, rfl⟩ := Nat.exists_eq_add_of_le hn
  refine ⟨scanIter s (carrierLength s / 8 + 1) scanStart, ?_, hend, ?_⟩
  · have hmore : scanIter s (carrierLength s / 8 + 1 + d) scanStart =
        scanIter s (carrierLength s / 8 + 1) scanStart := by
      rw [scanIter_add, scanIter_of_terminal hend]
    rw [runScan_beginScan]
    exact congrArg some hmore
  · rw [runScan_beginScan]
    rfl

/-! ### `extract_fn` by what ends the scan (R176) -/

theorem findIdx?_sentinel_eq_none {a : List Byte} (h : sentinel ∉ a) :
    a.findIdx? (fun b => b == sentinel) = none := by
  simp only [List.findIdx?_eq_none_iff, beq_eq_false_iff_ne]
  rintro b hb rfl
  exact h hb

/-- `extract_fn` fails at the first rejected byte when no sentinel comes before it. -/
theorem extractFn_of_reject {c a rest : List Byte} {b : Byte} {u : Utf8State}
    (hy : carrierBytes c = a ++ b :: rest) (hno : sentinel ∉ a) (hrun : utf8Run utf8Start a = some u)
    (hrej : utf8Step u b = none) : extractFn c = { text := none, groups := a.length + 1 } := by
  have hreject : firstReject utf8Start (a ++ b :: rest) = some a.length := by
    simp [firstReject_append hrun, firstReject, hrej]
  simp only [extractFn, hy, hreject, List.findIdx?_append, findIdx?_sentinel_eq_none hno,
    Option.none_or]
  cases (b :: rest).findIdx? (fun b => b == sentinel) with
  | none => rfl
  | some t => simp

/-- `extract_fn` fails at the end of a carrier with neither a sentinel nor a rejected byte. -/
theorem extractFn_of_end {c : List Byte} {u : Utf8State} (hno : sentinel ∉ carrierBytes c)
    (hrun : utf8Run utf8Start (carrierBytes c) = some u) :
    extractFn c = { text := none, groups := c.length / 8 } := by
  have hreject : firstReject utf8Start (carrierBytes c) = none := by
    simpa [firstReject] using firstReject_append hrun []
  simp only [extractFn, hreject, findIdx?_sentinel_eq_none hno]

/-! ### The limits of the embedding (R175) -/

/-- Settles O47: the framed message starts with `a` and a sentinel, and so do the folded bytes. -/
theorem embeddedSentinelTruncates : Obligations.EmbeddedSentinelTruncates := by
  intro c a b r h hvalid hno
  obtain ⟨rest, hrest⟩ := frame_prefix_carrierBytes h
  have hy : carrierBytes r = a ++ sentinel :: (b ++ [sentinel] ++ rest) := by
    rw [← hrest, frame, sentinel]
    simp
  exact extractFn_of_sentinel hy hvalid hno

/-- A run that rejects does so at a first byte. -/
theorem exists_reject_of_utf8Run {u : Utf8State} {m : List Byte} (h : utf8Run u m = none) :
    ∃ a b rest v, m = a ++ b :: rest ∧ utf8Run u a = some v ∧ utf8Step v b = none := by
  induction m generalizing u with
  | nil => cases h
  | cons x m ih =>
    cases hx : utf8Step u x with
    | none => exact ⟨[], x, m, u, rfl, rfl, hx⟩
    | some u' =>
      rw [utf8Run, hx] at h
      obtain ⟨a, b, rest, v, rfl, hrun, hrej⟩ := ih h
      refine ⟨x :: a, b, rest, v, rfl, ?_, hrej⟩
      rw [utf8Run, hx]
      exact hrun

/-- An ill-formed message is rejected within it, or at the sentinel that its last character lacks. -/
theorem exists_reject_of_invalid {m : List Byte} (h : utf8Valid m = false) :
    ∃ a b rest u, frame m = a ++ b :: rest ∧ a <+: m ∧ utf8Run utf8Start a = some u ∧
      utf8Step u b = none := by
  cases hrun : utf8Run utf8Start m with
  | none =>
    obtain ⟨a, b, rest, u, rfl, ha, hrej⟩ := exists_reject_of_utf8Run hrun
    exact ⟨a, b, rest ++ [sentinel], u, by simp [frame], List.prefix_append _ _, ha, hrej⟩
  | some u =>
    refine ⟨m, sentinel, [], u, rfl, List.prefix_rfl, hrun, ?_⟩
    cases hstep : utf8Step u sentinel with
    | none => rfl
    | some u' =>
      have hneed := need_eq_zero_of_sentinel (utf8Run_lo (by decide) hrun) hstep
      rw [(utf8Valid_iff m).2 ⟨u, hrun, hneed⟩] at h
      cases h

/-- Settles O48: the automaton rejects a byte of the framed message before any sentinel is accepted. -/
theorem illFormedMessageFailsToExtract : Obligations.IllFormedMessageFailsToExtract := by
  intro c m hle hbad hno
  obtain ⟨r, hr⟩ := exists_injectFn_of_le hle
  obtain ⟨a, b, rest, u, hframe, ha, hrun, hrej⟩ := exists_reject_of_invalid hbad
  obtain ⟨more, hmore⟩ := frame_prefix_carrierBytes hr
  have hy : carrierBytes r = a ++ b :: (rest ++ more) := by
    rw [← hmore, hframe, List.append_assoc, List.cons_append]
  exact ⟨r, hr, by rw [extractFn_of_reject hy (fun hs => hno (ha.subset hs)) hrun hrej]⟩

/-! ### `EXTRACT` computes `extract_fn` (R171, R172, R176) -/

/-- The bytes that `extract_fn` folds of `CAR[0..CLEN)` are the groups that the scan folds. -/
theorem carrierBytes_carrierOperand (s : State) :
    carrierBytes (carrierOperand s) = (List.range (carrierLength s / 8)).map (groupByte s) := by
  rw [carrierBytes, carrierOperand, length_carCells]
  refine List.map_congr_left fun j hj => congrArg fold8 (List.map_congr_left fun k hk => ?_)
  have hlt : 8 * j + k < carrierLength s := by
    have := List.mem_range.1 hj
    have := List.mem_range.1 hk
    omega
  rw [List.getD_eq_getElem?_getD, getElem?_carCells, if_pos hlt, Option.getD_some]

/-- A further whole group stands in the carrier right after the first `n`. -/
theorem exists_map_groupByte_split {s : State} {n : Nat} (h : 8 * (n + 1) ≤ carrierLength s) :
    ∃ rest, (List.range (carrierLength s / 8)).map (groupByte s) =
      (List.range n).map (groupByte s) ++ groupByte s n :: rest := by
  obtain ⟨d, hd⟩ : ∃ d, carrierLength s / 8 = n + 1 + d := ⟨carrierLength s / 8 - (n + 1), by omega⟩
  rw [hd, List.range_add, List.range_succ]
  exact ⟨_, by rw [List.map_append, List.map_append, List.append_assoc]; rfl⟩

/-- What a terminal scan commits, as an answer of `extract_fn`. -/
def scanAnswer (x : Scan) : ExtractAnswer :=
  { text := if x.phase = .terminated then some x.acc else none, groups := x.g }

theorem scanAnswer_text_eq_some {x : Scan} {text : List Byte} (h : (scanAnswer x).text = some text) :
    x.phase = .terminated ∧ x.acc = text := by
  unfold scanAnswer at h
  split at h
  · cases h
    exact ⟨‹_›, rfl⟩
  · cases h

/-- The terminal scan of a state holds the answer of `extract_fn`. -/
theorem extractFn_of_scanReached {s : State} {x : Scan} (h : ScanReached s x)
    (hx : x.phase ≠ .scanning) : extractFn (carrierOperand s) = scanAnswer x := by
  have hy := carrierBytes_carrierOperand s
  cases h with
  | scanning => exact absurd rfl hx
  | ended u acc hacc hrun hno hlen hend =>
    have hgroups : carrierLength s / 8 = acc.length := by omega
    rw [hgroups, ← hacc] at hy
    have hanswer := extractFn_of_end (hy ▸ hno) (hy ▸ hrun)
    rwa [carrierOperand, length_carCells, hgroups] at hanswer
  | rejected u acc hacc hrun hno hlen hrej =>
    obtain ⟨rest, hsplit⟩ := exists_map_groupByte_split hlen
    rw [hsplit, ← hacc] at hy
    exact extractFn_of_reject hy hno hrun hrej
  | terminated u acc hacc hrun hno hlen hneed hsent =>
    obtain ⟨rest, hsplit⟩ := exists_map_groupByte_split hlen
    rw [hsplit, ← hacc, hsent] at hy
    exact extractFn_of_sentinel hy ((utf8Valid_iff acc).2 ⟨u, hrun, hneed⟩) hno

theorem extractFn_bounds (s : State) :
    8 * (extractFn (carrierOperand s)).groups ≤ carrierLength s ∧
      ∀ text, (extractFn (carrierOperand s)).text = some text →
        (extractFn (carrierOperand s)).groups = text.length + 1 := by
  obtain ⟨x, hr, hp, -, -⟩ := execExtract_eq s
  obtain ⟨hg, hterm⟩ := hr.bounds
  rw [extractFn_of_scanReached hr hp]
  refine ⟨hg, fun text h => ?_⟩
  obtain ⟨ht, rfl⟩ := scanAnswer_text_eq_some h
  exact hterm ht

/-- The state that `EXTRACT` leaves when it commits an answer of `extract_fn`. -/
def commitAnswer (a : ExtractAnswer) (s : State) : State :=
  match a.text with
  | some text => extractSucceeded a.groups text s
  | none => raise .decodeError (some a.groups) (setScan none s)

theorem commitAnswer_of_some {a : ExtractAnswer} {text : List Byte} (h : a.text = some text) (s : State) :
    commitAnswer a s = extractSucceeded a.groups text s := by
  rw [commitAnswer, h]

theorem commitAnswer_of_none {a : ExtractAnswer} (h : a.text = none) (s : State) :
    commitAnswer a s = raise .decodeError (some a.groups) (setScan none s) := by
  rw [commitAnswer, h]

/-- The group count of an answer fits `GCNT`: it is at most `CLEN / 8`. -/
theorem toNat_gcnt_commitAnswer (s : State) :
    (commitAnswer (extractFn (carrierOperand s)) s).gcnt.toNat =
      (extractFn (carrierOperand s)).groups := by
  obtain ⟨hcar, -⟩ := extractFn_bounds s
  have hclen : carrierLength s < 2 ^ 32 := s.clen.isLt
  have hgcnt : (commitAnswer (extractFn (carrierOperand s)) s).gcnt =
      BitVec.ofNat 32 (extractFn (carrierOperand s)).groups := by
    unfold commitAnswer
    split <;> rfl
  rw [hgcnt, BitVec.toNat_ofNat, Nat.mod_eq_of_lt (by omega)]

/-- The cells that the commit of an answer accesses exist. -/
def AnswerFits (a : ExtractAnswer) (s : State) : Prop :=
  8 * a.groups ≤ s.params.carMax ∧ ∀ text, a.text = some text → text.length ≤ s.params.txtMax

/-- `EXTRACT` goes on exactly when the cells that its answer asks for exist, and commits the answer. -/
theorem execExtract_eq_next_iff {s t : State} : execExtract s = .next t ↔
    AnswerFits (extractFn (carrierOperand s)) s ∧ t = commitAnswer (extractFn (carrierOperand s)) s := by
  obtain ⟨x, hr, hp, -, he⟩ := execExtract_eq s
  rw [extractFn_of_scanReached hr hp, he]
  cases hx : x.phase with
  | scanning => exact absurd hx hp
  | failed =>
    have htext : (scanAnswer x).text = none := by simp [scanAnswer, hx]
    rw [commitAnswer_of_none htext]
    constructor
    · intro h
      obtain ⟨hcar, ⟨-, rfl⟩ | ⟨ht, -⟩⟩ := commitScan_next hp h
      · exact ⟨⟨hcar, by simp [htext]⟩, rfl⟩
      · rw [hx] at ht
        cases ht
    · rintro ⟨⟨hcar, -⟩, rfl⟩
      exact commitScan_failed hx hcar
  | terminated =>
    have htext : (scanAnswer x).text = some x.acc := by simp [scanAnswer, hx]
    rw [commitAnswer_of_some htext]
    constructor
    · intro h
      obtain ⟨hcar, ⟨hf, -⟩ | ⟨-, hacc, rfl⟩⟩ := commitScan_next hp h
      · rw [hx] at hf
        cases hf
      · exact ⟨⟨hcar, by simpa [htext] using hacc⟩, rfl⟩
    · rintro ⟨⟨hcar, hacc⟩, rfl⟩
      exact commitScan_terminated hx hcar (hacc _ htext)

theorem txtCells_extractSucceeded (g : Nat) (acc : List Byte) (s : State) :
    txtCells (extractSucceeded g acc s) acc.length = acc := by
  apply List.ext_getElem?
  intro j
  rw [getElem?_txtCells, readTxt_extractSucceeded]
  split
  next hj => rw [List.getElem?_eq_getElem hj, Option.getD_some]
  next hj => rw [List.getElem?_eq_none (Nat.le_of_not_lt hj)]

/-- Settles O43: `EXTRACT` commits the answer of `extract_fn`, whose counts fit their registers. -/
theorem extractComputesExtractFn : Obligations.ExtractComputesExtractFn := by
  intro s hv hc
  have hop : carCells s s.clen.toNat = carrierOperand s := rfl
  obtain ⟨t, ht⟩ := execExtract_goesOn hv hc
  obtain ⟨-, rfl⟩ := execExtract_eq_next_iff.1 ht
  have hgcnt := toNat_gcnt_commitAnswer s
  rw [hop]
  refine ⟨fun text htext => ?_, fun htext => ?_⟩
  · obtain ⟨-, hgroups⟩ := extractFn_bounds s
    have hg := hgroups text htext
    rw [commitAnswer_of_some htext] at ht hgcnt
    have htlen : (extractSucceeded (extractFn (carrierOperand s)).groups text s).tlen.toNat =
        text.length := (BitVec.toNat_ofNat _ 32).trans (Nat.mod_eq_of_lt (by omega))
    refine ⟨_, ht, rfl, ?_, htlen, hgcnt, hgcnt.trans hg, fun j hj => ?_⟩
    · rw [htlen, txtCells_extractSucceeded]
    · rw [readTxt_extractSucceeded, List.getElem?_eq_none hj, Option.getD_none]
  · rw [commitAnswer_of_none htext] at ht
    exact ht

/-! ### The cells that `EXTRACT` reads (R172) -/

theorem groupByte_congr {s s' : State} {j : Nat}
    (h : ∀ i, i < 8 * (j + 1) → readCar s' i = readCar s i) : groupByte s' j = groupByte s j := by
  refine congrArg fold8 (List.map_congr_left fun k hk => ?_)
  have := List.mem_range.1 hk
  rw [h _ (by omega)]

/-- What a scan reached, it reaches in every state with the same `CLEN` and the same consumed groups. -/
theorem ScanReached.congr {s s' : State} {x : Scan} (h : ScanReached s x)
    (hclen : carrierLength s' = carrierLength s) (hg : ∀ j, j < x.g → groupByte s' j = groupByte s j) :
    ScanReached s' x := by
  have hmap : ∀ n, n ≤ x.g → (List.range n).map (groupByte s) = (List.range n).map (groupByte s') :=
    fun n hn => List.map_congr_left fun j hj => (hg j ((List.mem_range.1 hj).trans_le hn)).symm
  cases h with
  | scanning u acc hacc hrun hno hlen =>
    rw [← hclen] at hlen
    exact .scanning u acc (hacc.trans (hmap _ le_rfl)) hrun hno hlen
  | ended u acc hacc hrun hno hlen hend =>
    rw [← hclen] at hlen hend
    exact .ended u acc (hacc.trans (hmap _ le_rfl)) hrun hno hlen hend
  | rejected u acc hacc hrun hno hlen hrej =>
    rw [← hclen] at hlen
    rw [← hg _ (Nat.lt_succ_self _)] at hrej
    exact .rejected u acc (hacc.trans (hmap _ (Nat.le_succ _))) hrun hno hlen hrej
  | terminated u acc hacc hrun hno hlen hneed hsent =>
    rw [← hclen] at hlen
    rw [← hg _ (Nat.lt_succ_self _)] at hsent
    exact .terminated u acc (hacc.trans (hmap _ (Nat.le_succ _))) hrun hno hlen hneed hsent

/-- The answer of `extract_fn` depends on the groups it consumes alone. -/
theorem extractFn_carrierOperand_congr {s s' : State} (hclen : s'.clen = s.clen)
    (hcells : ∀ i, i < 8 * (extractFn (carrierOperand s)).groups → readCar s' i = readCar s i) :
    extractFn (carrierOperand s') = extractFn (carrierOperand s) := by
  obtain ⟨x, hr, hp, -, -⟩ := execExtract_eq s
  have hanswer := extractFn_of_scanReached hr hp
  rw [hanswer] at hcells ⊢
  have hr' : ScanReached s' x := hr.congr (congrArg BitVec.toNat hclen) fun j hj =>
    groupByte_congr fun i hi => hcells i (hi.trans_le (Nat.mul_le_mul_left 8 hj))
  exact extractFn_of_scanReached hr' hp

/-- Settles O44: both states commit the same answer. -/
theorem extractReadSet : Obligations.ExtractReadSet := by
  intro s s' t h hparams hclen hcells
  obtain ⟨hfits, rfl⟩ := execExtract_eq_next_iff.1 h
  rw [toNat_gcnt_commitAnswer] at hcells
  have hanswer := extractFn_carrierOperand_congr hclen hcells
  have hrun : execExtract s' = .next (commitAnswer (extractFn (carrierOperand s)) s') := by
    rw [execExtract_eq_next_iff, hanswer]
    exact ⟨by rwa [AnswerFits, hparams], rfl⟩
  refine ⟨_, hrun, ?_⟩
  cases htext : (extractFn (carrierOperand s)).text with
  | none =>
    rw [commitAnswer_of_none htext, commitAnswer_of_none htext]
    exact ⟨rfl, rfl, fun hstatus => absurd hstatus (by decide : (0x033#32 : Word) ≠ 0x020#32)⟩
  | some text =>
    rw [commitAnswer_of_some htext, commitAnswer_of_some htext]
    refine ⟨rfl, rfl, fun _ => ⟨rfl, fun j hj => ?_⟩⟩
    have hj : j < text.length := hj.trans_le (toNat_ofNat_le 32 text.length)
    rw [readTxt_extractSucceeded, readTxt_extractSucceeded, List.getElem?_eq_getElem hj,
      Option.getD_some, Option.getD_some]

end Sys2Proof.Machine

/-! # Proofs: written and placed command words, commands and runs that end (20_memory.md, 30_encoding.md) -/

namespace Sys2Proof.Machine

open Sys2Proof

/-- Settles O1: the decoder run on each word. -/
theorem writtenWordsDecode : Obligations.WrittenWordsDecode := by
  unfold Obligations.WrittenWordsDecode
  decide

/-- The data of the `CMD` write that places a word carries the word (log entry 7). -/
theorem placed_data (word : Word) :
    ((BitVec.ofNat 32 (word.toNat % 2 ^ 32)).setWidth 64 : Wide).setWidth 32 = word := by
  rw [BitVec.setWidth_setWidth_of_le _ (by decide), BitVec.setWidth_eq, Nat.mod_eq_of_lt word.isLt,
    BitVec.ofNat_toNat, BitVec.setWidth_eq]

/-- Settles O8: the placed event is a `CMD` write of the word. -/
theorem placedWordRunsNext : Obligations.PlacedWordRunsNext := by
  intro s t word i hd ht
  have hrun := stepRunsDecodedCommand (s.withFetchWord 32 word.toNat) s.pending _ i rfl rfl
  rw [placed_data] at hrun
  obtain ⟨hnext, -, -⟩ := hrun hd
  exact hnext t ht

/-- Settles O59. -/
theorem commandsAlwaysEnd : Obligations.CommandsAlwaysEnd := fun i _ h => h.exec_goesOn i

/-- Settles O58: a state that meets the invariants goes on, to a state that meets them again. -/
theorem runsNeverStop : Obligations.RunsNeverStop := by
  intro s hs n
  induction n generalizing s with
  | zero => exact ⟨s, core_run_zero s⟩
  | succ n ih =>
    obtain ⟨t, ht⟩ := invariantStatesGoOn s hs
    obtain ⟨u, hu⟩ := ih t (stepKeepsTheInvariant s t hs ht)
    exact ⟨u, (core_run_of_step_next ht).trans hu⟩

end Sys2Proof.Machine
